-- ==== Sys2Proof/Word.lean ====
section
/-! DEFINITION. The words of the machine: the widths the spec gives its values (00_scope.md R8, R9). -/

namespace Sys2Proof

/-- An 8-bit value: a general register, a memory cell, a timer (R8, row XLEN). -/
abbrev Byte := BitVec 8

/-- A 16-bit value: an instruction word, the program counter, a call-stack slot (R8). -/
abbrev Word := BitVec 16

/-- A 12-bit value: the address register I and the field nnn (R8, row ILEN; R10). -/
abbrev Addr := BitVec 12

/-- A 4-bit value: a register index, a key number, a sprite height (R10). -/
abbrev Nibble := BitVec 4

end Sys2Proof
end

