-- ==== Sys2Proof/Syntax.lean ====
section
/-! DEFINITION. The 35 instructions, one constructor per row of the opcode map (30_encoding.md R94),
in its order. Operands are the instruction's fields as unsigned bit strings (R10, R92). -/

namespace Sys2Proof

/-- An instruction, its fields pulled out of the word (R94). The fields the spec says are ignored (nnn of
0nnn, y of 8xy6 and 8xyE, R95) are kept, so that each legal word is one instruction (log 22). -/
inductive Instr where
  /-- 00E0, clear screen. -/
  | cls
  /-- 00EE, return. -/
  | ret
  /-- 0nnn, legacy system call. -/
  | sys (nnn : Addr)
  /-- 1nnn, jump. -/
  | jp (nnn : Addr)
  /-- 2nnn, call. -/
  | call (nnn : Addr)
  /-- 3xkk, skip if equal, immediate. -/
  | seImm (x : Nibble) (kk : Byte)
  /-- 4xkk, skip if not equal, immediate. -/
  | sneImm (x : Nibble) (kk : Byte)
  /-- 5xy0, skip if equal, registers. -/
  | seReg (x y : Nibble)
  /-- 6xkk, load immediate. -/
  | ldImm (x : Nibble) (kk : Byte)
  /-- 7xkk, add immediate. -/
  | addImm (x : Nibble) (kk : Byte)
  /-- 8xy0, move. -/
  | ldReg (x y : Nibble)
  /-- 8xy1, or. -/
  | orReg (x y : Nibble)
  /-- 8xy2, and. -/
  | andReg (x y : Nibble)
  /-- 8xy3, exclusive or. -/
  | xorReg (x y : Nibble)
  /-- 8xy4, add with carry. -/
  | addReg (x y : Nibble)
  /-- 8xy5, subtract with borrow flag. -/
  | sub (x y : Nibble)
  /-- 8xy6, shift right; y is ignored. -/
  | shr (x y : Nibble)
  /-- 8xy7, reverse subtract. -/
  | subn (x y : Nibble)
  /-- 8xyE, shift left; y is ignored. -/
  | shl (x y : Nibble)
  /-- 9xy0, skip if not equal, registers. -/
  | sneReg (x y : Nibble)
  /-- Annn, load address register. -/
  | ldI (nnn : Addr)
  /-- Bnnn, jump with offset. -/
  | jpV0 (nnn : Addr)
  /-- Cxkk, random-and. -/
  | rnd (x : Nibble) (kk : Byte)
  /-- Dxyn, draw sprite. -/
  | drw (x y n : Nibble)
  /-- Ex9E, skip if key pressed. -/
  | skp (x : Nibble)
  /-- ExA1, skip if key not pressed. -/
  | sknp (x : Nibble)
  /-- Fx07, read delay timer. -/
  | ldVxDT (x : Nibble)
  /-- Fx0A, block for key. -/
  | ldKey (x : Nibble)
  /-- Fx15, set delay timer. -/
  | ldDTVx (x : Nibble)
  /-- Fx18, set sound timer. -/
  | ldSTVx (x : Nibble)
  /-- Fx1E, add to address register. -/
  | addI (x : Nibble)
  /-- Fx29, font sprite address. -/
  | ldFont (x : Nibble)
  /-- Fx33, BCD decomposition. -/
  | bcd (x : Nibble)
  /-- Fx55, store registers. -/
  | store (x : Nibble)
  /-- Fx65, load registers. -/
  | load (x : Nibble)
  deriving DecidableEq, Repr

end Sys2Proof
end

