-- ==== Sys2Proof/WellFormed.lean ====
section
/-! DEFINITION. Which terms of Instr stand for an instruction word (30_encoding.md R94, R97). -/

namespace Sys2Proof

/-- An instruction is well formed when some word decodes to it. Every field value is legal (R92, R95) but
for 0nnn: the words 0x00E0 and 0x00EE are CLS and RET, not system calls (R94, R97). -/
def Instr.wellFormed : Instr → Bool
  | .sys nnn => nnn ≠ 0x0E0 && nnn ≠ 0x0EE
  | .cls | .ret | .jp _ | .call _ | .seImm _ _ | .sneImm _ _ | .seReg _ _ | .ldImm _ _ | .addImm _ _
  | .ldReg _ _ | .orReg _ _ | .andReg _ _ | .xorReg _ _ | .addReg _ _ | .sub _ _ | .shr _ _ | .subn _ _
  | .shl _ _ | .sneReg _ _ | .ldI _ | .jpV0 _ | .rnd _ _ | .drw _ _ _ | .skp _ | .sknp _ | .ldVxDT _
  | .ldKey _ | .ldDTVx _ | .ldSTVx _ | .addI _ | .ldFont _ | .bcd _ | .store _ | .load _ => true

end Sys2Proof
end

