-- ==== Sys2Proof/Decode.lean ====
section
/-! DEFINITION. The decoder, total on words and on byte strings, and the encoder
(30_encoding.md R90 to R97). -/

namespace Sys2Proof

/-- Why a byte string is no instruction: one name per illegal space of R96, and a string too short to
hold an instruction (R90). -/
inductive DecodeError where
  /-- Fewer than two bytes were given (R90). Safe: the machine always fetches two. -/
  | truncated
  /-- 5xyn with n not 0 (R96, D5). -/
  | family5 (w : Word)
  /-- 8xyn with n in 8, 9, A, B, C, D, F (R96). -/
  | family8 (w : Word)
  /-- 9xyn with n not 0 (R96, D5). -/
  | family9 (w : Word)
  /-- Exkk with kk neither 9E nor A1 (R96). -/
  | familyE (w : Word)
  /-- Fxkk with kk not in the table (R96). -/
  | familyF (w : Word)
  deriving DecidableEq, Repr

/-! The fields of a word (R10). -/

/-- The first nibble, on which decoding dispatches (R91, R93). -/
def Word.op (w : Word) : Nibble := w.extractLsb' 12 4
/-- Field x, bits 11..8 (R10). -/
def Word.x (w : Word) : Nibble := w.extractLsb' 8 4
/-- Field y, bits 7..4 (R10). -/
def Word.y (w : Word) : Nibble := w.extractLsb' 4 4
/-- Field n, bits 3..0 (R10). -/
def Word.n (w : Word) : Nibble := w.extractLsb' 0 4
/-- Field kk, bits 7..0 (R10). -/
def Word.kk (w : Word) : Byte := w.extractLsb' 0 8
/-- Field nnn, bits 11..0 (R10). -/
def Word.nnn (w : Word) : Addr := w.extractLsb' 0 12

/-- First nibble 8: the fourth nibble selects the operation (R93). -/
def decode8 (w : Word) : Except DecodeError Instr :=
  match (Word.n w).toNat with
  | 0x0 => .ok (.ldReg (Word.x w) (Word.y w))
  | 0x1 => .ok (.orReg (Word.x w) (Word.y w))
  | 0x2 => .ok (.andReg (Word.x w) (Word.y w))
  | 0x3 => .ok (.xorReg (Word.x w) (Word.y w))
  | 0x4 => .ok (.addReg (Word.x w) (Word.y w))
  | 0x5 => .ok (.sub (Word.x w) (Word.y w))
  | 0x6 => .ok (.shr (Word.x w) (Word.y w))
  | 0x7 => .ok (.subn (Word.x w) (Word.y w))
  | 0xE => .ok (.shl (Word.x w) (Word.y w))
  | _ => .error (.family8 w)

/-- First nibble E: the low byte selects the operation (R93). -/
def decodeE (w : Word) : Except DecodeError Instr :=
  match (Word.kk w).toNat with
  | 0x9E => .ok (.skp (Word.x w))
  | 0xA1 => .ok (.sknp (Word.x w))
  | _ => .error (.familyE w)

/-- First nibble F: the low byte selects the operation (R93). -/
def decodeF (w : Word) : Except DecodeError Instr :=
  match (Word.kk w).toNat with
  | 0x07 => .ok (.ldVxDT (Word.x w))
  | 0x0A => .ok (.ldKey (Word.x w))
  | 0x15 => .ok (.ldDTVx (Word.x w))
  | 0x18 => .ok (.ldSTVx (Word.x w))
  | 0x1E => .ok (.addI (Word.x w))
  | 0x29 => .ok (.ldFont (Word.x w))
  | 0x33 => .ok (.bcd (Word.x w))
  | 0x55 => .ok (.store (Word.x w))
  | 0x65 => .ok (.load (Word.x w))
  | _ => .error (.familyF w)

/-- First nibble 0: CLS, RET, and every other word the no-op system call (R93, R97). -/
def decode0 (w : Word) : Instr :=
  if w = 0x00E0 then .cls else if w = 0x00EE then .ret else .sys (Word.nnn w)

/-- The decoder: a total function of the 65536 words (R93). -/
def decode (w : Word) : Except DecodeError Instr :=
  match (Word.op w).toNat with
  | 0x0 => .ok (decode0 w)
  | 0x1 => .ok (.jp (Word.nnn w))
  | 0x2 => .ok (.call (Word.nnn w))
  | 0x3 => .ok (.seImm (Word.x w) (Word.kk w))
  | 0x4 => .ok (.sneImm (Word.x w) (Word.kk w))
  | 0x5 => if Word.n w = 0 then .ok (.seReg (Word.x w) (Word.y w)) else .error (.family5 w)
  | 0x6 => .ok (.ldImm (Word.x w) (Word.kk w))
  | 0x7 => .ok (.addImm (Word.x w) (Word.kk w))
  | 0x8 => decode8 w
  | 0x9 => if Word.n w = 0 then .ok (.sneReg (Word.x w) (Word.y w)) else .error (.family9 w)
  | 0xA => .ok (.ldI (Word.nnn w))
  | 0xB => .ok (.jpV0 (Word.nnn w))
  | 0xC => .ok (.rnd (Word.x w) (Word.kk w))
  | 0xD => .ok (.drw (Word.x w) (Word.y w) (Word.n w))
  | 0xE => decodeE w
  | _ => decodeF w

/-- The word two bytes hold, the byte at the lower address first: big-endian (R62, R90). -/
def wordOfBytes (hi lo : Byte) : Word := hi ++ lo

/-- The two bytes of a word as memory holds them, lower address first (R62, R90). -/
def bytesOfWord (w : Word) : List Byte := [w.extractLsb' 8 8, w.extractLsb' 0 8]

/-- Decoding a byte string: the instruction at its front and the bytes after it (R90). -/
def decodeBytes : List Byte → Except DecodeError (Instr × List Byte)
  | hi :: lo :: rest =>
    match decode (wordOfBytes hi lo) with
    | .ok i => .ok (i, rest)
    | .error e => .error e
  | _ => .error .truncated

/-- Format N: first nibble and nnn (R91). -/
def packN (op : Nibble) (nnn : Addr) : Word := op ++ nnn
/-- Formats K and F: first nibble, x and a byte (R91). -/
def packK (op x : Nibble) (kk : Byte) : Word := (op ++ x : Byte) ++ kk
/-- Format Y: first nibble, x, y and the fourth nibble (R91). -/
def packY (op x y n : Nibble) : Word := (op ++ x : Byte) ++ (y ++ n : Byte)

/-- The encoder, written from the opcode map (R94); the ignored y of 8xy6 and 8xyE is kept (R95). -/
def encode : Instr → Word
  | .cls => 0x00E0
  | .ret => 0x00EE
  | .sys nnn => packN 0x0 nnn
  | .jp nnn => packN 0x1 nnn
  | .call nnn => packN 0x2 nnn
  | .seImm x kk => packK 0x3 x kk
  | .sneImm x kk => packK 0x4 x kk
  | .seReg x y => packY 0x5 x y 0x0
  | .ldImm x kk => packK 0x6 x kk
  | .addImm x kk => packK 0x7 x kk
  | .ldReg x y => packY 0x8 x y 0x0
  | .orReg x y => packY 0x8 x y 0x1
  | .andReg x y => packY 0x8 x y 0x2
  | .xorReg x y => packY 0x8 x y 0x3
  | .addReg x y => packY 0x8 x y 0x4
  | .sub x y => packY 0x8 x y 0x5
  | .shr x y => packY 0x8 x y 0x6
  | .subn x y => packY 0x8 x y 0x7
  | .shl x y => packY 0x8 x y 0xE
  | .sneReg x y => packY 0x9 x y 0x0
  | .ldI nnn => packN 0xA nnn
  | .jpV0 nnn => packN 0xB nnn
  | .rnd x kk => packK 0xC x kk
  | .drw x y n => packY 0xD x y n
  | .skp x => packK 0xE x 0x9E
  | .sknp x => packK 0xE x 0xA1
  | .ldVxDT x => packK 0xF x 0x07
  | .ldKey x => packK 0xF x 0x0A
  | .ldDTVx x => packK 0xF x 0x15
  | .ldSTVx x => packK 0xF x 0x18
  | .addI x => packK 0xF x 0x1E
  | .ldFont x => packK 0xF x 0x29
  | .bcd x => packK 0xF x 0x33
  | .store x => packK 0xF x 0x55
  | .load x => packK 0xF x 0x65

/-- The bytes of an encoded instruction, lower address first. -/
def encodeBytes (i : Instr) : List Byte := bytesOfWord (encode i)

/-- The word of an instruction whose table bits are w: every instruction is one 16-bit word, so bit k of
the table is bit k of the word, and the bits from nbits up are 0. -/
def tableWord (nbits w : Nat) : Word := BitVec.ofNat 16 (w % 2 ^ nbits)

/-- What the decoder reads from an instruction whose table bits are w, laid out as memory holds it. -/
def decodeTableWord (nbits w : Nat) : Option Instr :=
  match decodeBytes (bytesOfWord (tableWord nbits w)) with
  | .ok (i, _) => some i
  | .error _ => none

end Sys2Proof
end

