-- ==== Sys2Proof/Config.lean ====
section
/-! DEFINITION. What is fixed for the machine (00_scope.md R8) and the free values of the environment
(93_implementation_defined.md S1, S2, S3). -/

namespace Sys2Proof

/-- Number of cells of Mem, addresses 0x000..0xFFF (R8, R36). -/
def Config.memSize : Nat := 4096

/-- The load origin: reset value of pc, first address of the program area (R8, R25, R65). -/
def Config.loadOrigin : Nat := 0x200

/-- The longest program image, in bytes (R8, R252). -/
def Config.maxProgram : Nat := 3584

/-- Distance between two glyphs of the font table, in bytes; the table starts at address 0 (R44, R70). -/
def Config.glyphBytes : Nat := 5

/-- The font table, glyphs 0 to F in address order from address 0 (R44).
Row A is the source's; the other rows are the spec's default of its parameter FONT, taken by the spec
from general knowledge (D16). PRESUMED, unsafe: log 6. -/
def Config.font : List Byte :=
  [0xF0, 0x90, 0x90, 0x90, 0xF0] ++ [0x20, 0x60, 0x20, 0x20, 0x70] ++
  [0xF0, 0x10, 0xF0, 0x80, 0xF0] ++ [0xF0, 0x10, 0xF0, 0x10, 0xF0] ++
  [0x90, 0x90, 0xF0, 0x10, 0x10] ++ [0xF0, 0x80, 0xF0, 0x10, 0xF0] ++
  [0xF0, 0x80, 0xF0, 0x90, 0xF0] ++ [0xF0, 0x10, 0x20, 0x40, 0x40] ++
  [0xF0, 0x90, 0xF0, 0x90, 0xF0] ++ [0xF0, 0x90, 0xF0, 0x10, 0xF0] ++
  [0xF0, 0x90, 0xF0, 0x90, 0x90] ++ [0xE0, 0x90, 0xE0, 0x90, 0xE0] ++
  [0xF0, 0x80, 0x80, 0x80, 0xF0] ++ [0xE0, 0x90, 0x90, 0x90, 0xE0] ++
  [0xF0, 0x80, 0xF0, 0x80, 0xF0] ++ [0xF0, 0x80, 0xF0, 0x80, 0x80]

/-- What every cell of Mem holds after reset: the font at 0x000..0x04F, 0x00 elsewhere (R42).
This is what an address that `State.mem` does not list reads as (log 20). -/
def Config.resetByte (a : Nat) : Byte := Config.font.getD a 0

/-- FREE VALUE: the keypad levels the environment presents to the n-th step that finds no queued input
(S3, R232). Nothing constrains it (log 1). -/
opaque Config.freeKeyDown : Nat → BitVec 16

/-- FREE VALUE: the key-press event, if any, presented to that step (S3, R233; log 1). -/
opaque Config.freeKeyPress : Nat → Option Nibble

/-- FREE VALUE: the random byte presented to that step (S1, R234, D22; log 3). -/
opaque Config.freeRandomByte : Nat → Byte

/-- FREE VALUE: how many timer ticks fall between that step and the next one (S2, R229; log 2). -/
opaque Config.freeTicks : Nat → Nat

end Sys2Proof
end

