-- ==== Sys2Proof/Machine/State.lean ====
section
/-! DEFINITION. The state of the machine (10_state.md), the faults a step can end in (60_exceptions.md R211)
and the state after reset (10_state.md R42). Plain data only. -/

namespace Sys2Proof.Machine

/-- The run state (R34): the core runs, or waits for a key-press event to put into V[kx]. -/
inductive RunState where
  | running
  | awaitingKey (kx : Nibble)
  deriving DecidableEq, Repr

/-- The kind of an access that is out of range (R211, R215). -/
inductive AccessKind where
  | fetch
  | load
  | store
  deriving DecidableEq, Repr

/-- What the environment does for one step (R7, R11, R41, R256): the values it presents on its ports
for that step, and how many timer ticks follow before the next step (R229). -/
structure Input where
  /-- `KEY.down`: bit k is 1 while key k is held (R232). -/
  keyDown : BitVec 16
  /-- `KEY.press`: the key-press event of this step, if any (R233). -/
  keyPress : Option Nibble
  /-- `RNG.byte`: the random byte, for an executed Cxkk (R234). -/
  rnd : Byte
  /-- The number of `TMR.tick` events between this step and the next (R229). -/
  ticks : Nat
  deriving DecidableEq, Repr

/-- The 64 x 32 grid as 32 rows, row 0 first, each of 64 cells, column 0 first; true = set (R38). -/
abbrev Framebuffer := Vector (Vector Bool 64) 32

/-- The complete state (10_state.md). The last two fields are the model's own: they carry what the
environment presents, which the spec gives as inputs of the step (R41; log 1, log 2). -/
structure State where
  /-- V[0]..V[15]; VF is V[15] (R20, R21). -/
  v : Vector Byte 16
  /-- The address register I (R23). -/
  i : Addr
  /-- The program counter (R25). -/
  pc : Word
  /-- The call-stack slots (R29). -/
  stack : Vector Word 16
  /-- The number of frames in use, sp + 1 (R30, D17). -/
  depth : Fin 17
  /-- The delay timer DT (R32). -/
  dt : Byte
  /-- The sound timer ST (R33). -/
  st : Byte
  /-- The run state (R34). -/
  run : RunState
  /-- Mem (R36): the cells that differ from their reset contents, addresses strictly rising (log 20). -/
  mem : List Host.Cell
  /-- The framebuffer FB (R38). -/
  fb : Framebuffer
  /-- MODEL'S OWN: the inputs the environment has already decided, the next step's first (log 1). -/
  inputs : List Input
  /-- MODEL'S OWN: the index of the free input the next step sees if `inputs` is empty (log 1). -/
  inputCount : Nat
  deriving DecidableEq, Repr

/-- The ways a step can fail (R211). The machine's own state is then what it was before the step (R218);
a model that stops here is safe, since the spec's step ends here too. -/
inductive Fault where
  /-- Code 1. Raised by `step` on a word that is no instruction (R212). Safe: the spec's own fault. -/
  | decodeError (instr : Word) (pc : Word)
  /-- Code 2. Raised by 2nnn with 16 frames in use (R213). Safe: the spec's own fault. -/
  | stackOverflow (pc : Word)
  /-- Code 3. Raised by 00EE with an empty stack (R214). Safe: the spec's own fault. -/
  | stackUnderflow (pc : Word)
  /-- Code 4. Raised by fetch, by Fx33 and Fx55 (store), by Fx65 and Dxyn (load), with the lowest
  offending address (R215). Safe: the spec's own fault. -/
  | addressOutOfRange (addr : Word) (kind : AccessKind) (pc : Word)
  /-- Code 5. Raised by nothing: register indices are nibbles (R216). Safe: it never occurs. -/
  | invalidRegisterIndex
  /-- Code 6. Raised by Fx29 with V[x] above 15 (R217). Safe: the spec's own fault. -/
  | invalidFontDigit (value : Byte) (pc : Word)
  /-- Code 7. Raised by Ex9E and ExA1 with V[x] above 15 (R219). Safe: the spec's own fault. -/
  | invalidKeyIndex (value : Byte) (pc : Word)
  deriving DecidableEq, Repr

/-- What the model gives no meaning to. -/
inductive Refusal where
  /-- An instruction without a meaning in this model; raised by no arm of `exec`, for every instruction
  has its meaning. Safe: it never occurs. -/
  | notModelled (mnemonic : String)
  /-- Raised by `State.loadProgram`, never by a step: the image is longer than 3584 bytes (R252). Safe:
  the spec's own refusal. -/
  | programTooLarge (length : Nat)
  deriving DecidableEq, Repr

/-- What a step of this machine answers. -/
abbrev Outcome := Host.Outcome State Fault Refusal

/-- The machine right after `DRV.reset` (R42, R250): pc at the load origin, stack empty, everything else
zero, the font in memory. The zeros are the spec's decision D12 (log 5), the stack slots the model's
choice (log 4), the two last fields hold no decided input (log 1). -/
def State.reset : State where
  v := Vector.replicate 16 0
  i := 0
  pc := 0x0200
  stack := Vector.replicate 16 0
  depth := 0
  dt := 0
  st := 0
  run := .running
  mem := []
  fb := Vector.replicate 32 (Vector.replicate 64 false)
  inputs := []
  inputCount := 0

end Sys2Proof.Machine
end

