-- ==== Sys2Proof/Machine/Ops.lean ====
section
/-! DEFINITION. The named operations over registers, stack, memory and framebuffer, raising a fault,
fetching, and what happens between two steps. -/

namespace Sys2Proof.Machine

/-! ## Register updates, one per piece of state -/

/-- Read of general register x (R11, R20). -/
def State.getV (s : State) (x : Nibble) : Byte := s.v[x.toNat]

/-- Write of general register x (R11, R20). -/
def State.setV (s : State) (x : Nibble) (b : Byte) : State := { s with v := s.v.set x.toNat b }

/-- Write of the whole register file. -/
def State.setRegs (s : State) (v : Vector Byte 16) : State := { s with v := v }

/-- Write of the address register (R23). -/
def State.setI (s : State) (a : Addr) : State := { s with i := a }

/-- Write of the program counter (R25). -/
def State.setPc (s : State) (pc : Word) : State := { s with pc := pc }

/-- Write of the call stack and its pointer (R29, R30). -/
def State.setStack (s : State) (stack : Vector Word 16) (depth : Fin 17) : State :=
  { s with stack := stack, depth := depth }

/-- Write of the delay timer (R32). -/
def State.setDT (s : State) (b : Byte) : State := { s with dt := b }

/-- Write of the sound timer (R33). -/
def State.setST (s : State) (b : Byte) : State := { s with st := b }

/-- Write of the run state (R34). -/
def State.setRun (s : State) (r : RunState) : State := { s with run := r }

/-- Write of Mem as a whole (R36). -/
def State.setMem (s : State) (m : List Host.Cell) : State := { s with mem := m }

/-- Write of the framebuffer as a whole (R38). -/
def State.setFB (s : State) (fb : Framebuffer) : State := { s with fb := fb }

/-- The queue of decided inputs and the index of the free ones (log 1). -/
def State.setInputs (s : State) (q : List Input) (n : Nat) : State :=
  { s with inputs := q, inputCount := n }

/-! ## The program counter (R26, R27, R150): all additions modulo 65536 -/

/-- The normal advance: pc + 2 (R26). -/
def State.advance (s : State) : State := s.setPc (s.pc + 2)

/-- The advance of a skip: pc + 4 if the condition holds, else pc + 2 (R26, R150). -/
def State.skipIf (s : State) (c : Bool) : State := s.setPc (s.pc + if c then 4 else 2)

/-! ## Raising a fault (R218, R221): the step ends, no state is changed, control goes nowhere -/

/-- `raise <cause>(info)` (R11): the step answers the fault; the state is that before the step. -/
def raise (f : Fault) : Outcome := .fault f

/-- The code of a fault cause (R211). -/
def Fault.code : Fault → Nat
  | .decodeError _ _ => 1
  | .stackOverflow _ => 2
  | .stackUnderflow _ => 3
  | .addressOutOfRange _ _ _ => 4
  | .invalidRegisterIndex => 5
  | .invalidFontDigit _ _ => 6
  | .invalidKeyIndex _ _ => 7

/-! ## The call stack (R31) -/

/-- The stack pointer as the spec counts it, -1 when empty (R30). -/
def State.sp (s : State) : Int := (s.depth.val : Int) - 1

/-- Push (R31). -/
def State.push (s : State) (w : Word) : Except Fault State :=
  if h : s.depth.val < 16 then
    .ok (s.setStack (s.stack.set s.depth.val w) ⟨s.depth.val + 1, by omega⟩)
  else .error (.stackOverflow s.pc)

/-- Pop (R31): the popped word and the state after; the slot keeps its content. -/
def State.pop (s : State) : Except Fault (Word × State) :=
  if h : 0 < s.depth.val then
    .ok (s.stack[s.depth.val - 1], s.setStack s.stack ⟨s.depth.val - 1, by omega⟩)
  else .error (.stackUnderflow s.pc)

/-! ## Memory (R36, R60, R61): a list of cells in one canonical form (log 20) -/

/-- The byte at address a (R60): the listed one, else the cell's reset contents. -/
def Memory.read : List Host.Cell → Nat → Byte
  | [], a => Config.resetByte a
  | (b, v) :: m, a => if a = b then v else Memory.read m a

/-- List address a with byte v, keeping the addresses rising. -/
def Memory.insert : List Host.Cell → Nat → Byte → List Host.Cell
  | [], a, v => [(a, v)]
  | (b, w) :: m, a, v =>
    if a < b then (a, v) :: (b, w) :: m
    else if a = b then (a, v) :: m
    else (b, w) :: Memory.insert m a v

/-- List address a no more. -/
def Memory.erase : List Host.Cell → Nat → List Host.Cell
  | [], _ => []
  | (b, w) :: m, a => if a = b then Memory.erase m a else (b, w) :: Memory.erase m a

/-- Store byte v at address a (R61), keeping the canonical form: a cell that gets its reset contents
back is listed no more. -/
def Memory.write (m : List Host.Cell) (a : Nat) (v : Byte) : List Host.Cell :=
  if v = Config.resetByte a then Memory.erase m a else Memory.insert m a v

/-- Bytes stored at ascending addresses from a (R63). -/
def Memory.writeBytes (m : List Host.Cell) (a : Nat) : List Byte → List Host.Cell
  | [] => m
  | b :: bs => Memory.writeBytes (Memory.write m a b) (a + 1) bs

/-- The n bytes at ascending addresses from a (R63). -/
def Memory.readBytes (m : List Host.Cell) (a n : Nat) : List Byte :=
  (List.range n).map fun k => Memory.read m (a + k)

/-- The canonical form of a memory list: addresses strictly rising and below 0x1000, and no cell listed
with its reset contents. -/
def Memory.wf : List Host.Cell → Bool
  | [] => true
  | (a, v) :: m =>
    decide (a < Config.memSize) && decide (v ≠ Config.resetByte a) &&
      m.all (fun c => decide (a < c.1)) && Memory.wf m

/-- The byte of Mem at address a. -/
def State.readMem (s : State) (a : Nat) : Byte := Memory.read s.mem a

/-! ## Range and protection checks (R66, R67, R177): the whole range is checked before any access -/

/-- The effective address I + offset, in the integers (R66, R170). -/
def State.ea (s : State) (offset : Nat) : Nat := s.i.toNat + offset

/-- The fault of reading n bytes from I, if there is one (R66, R177): reading none checks nothing. -/
def State.loadFault (s : State) (n : Nat) : Option Fault :=
  if 0 < n ∧ s.ea (n - 1) > 0xFFF then some (.addressOutOfRange 0x1000 .load s.pc) else none

/-- The fault of storing n bytes from I, if there is one (R66, R67, R177): past 0xFFF, or starting in the
reserved area. -/
def State.storeFault (s : State) (n : Nat) : Option Fault :=
  if s.ea (n - 1) > 0xFFF then some (.addressOutOfRange 0x1000 .store s.pc)
  else if s.ea 0 < Config.loadOrigin then
    some (.addressOutOfRange (s.i.setWidth 16) .store s.pc)
  else none

/-- Memory[I..] = the given bytes, after the checks (R174, R175). -/
def State.storeAtI (s : State) (bs : List Byte) : State :=
  s.setMem (Memory.writeBytes s.mem (s.ea 0) bs)

/-- The register file with V[0]..V[n-1] read from Memory[I..], ascending (R176). -/
def State.loadRegs (s : State) (n : Nat) : Vector Byte 16 :=
  (List.range n).foldl (fun v k => v.setIfInBounds k (s.readMem (s.ea k))) s.v

/-! ## The framebuffer (R76, R77) -/

/-- `get`: the pixel at column cx, row cy (R76). -/
def fbGet (fb : Framebuffer) (cx : Fin 64) (cy : Fin 32) : Bool := fb[cy][cx]

/-- `set`: the pixel at column cx, row cy becomes b (R76). -/
def fbSet (fb : Framebuffer) (cx : Fin 64) (cy : Fin 32) (b : Bool) : Framebuffer :=
  fb.set cy ((fb[cy]).set cx b)

/-- `clear`: every pixel unset (R76). -/
def fbBlank : Framebuffer := Vector.replicate 32 (Vector.replicate 64 false)

/-- The framebuffer and the collision so far, while a sprite is drawn (R192). -/
structure Canvas where
  /-- The framebuffer. -/
  fb : Framebuffer
  /-- A set pixel became unset. -/
  collision : Bool
  deriving DecidableEq, Repr

/-- One pixel: new = old XOR sprite bit; a set pixel that becomes unset is a collision (R192, R77). -/
def Canvas.plot (c : Canvas) (cx : Fin 64) (cy : Fin 32) (bit : Bool) : Canvas where
  fb := fbSet c.fb cx cy (fbGet c.fb cx cy != bit)
  collision := c.collision || (fbGet c.fb cx cy && bit)

/-- Sprite column c of byte b: bit 7 is column 0, the leftmost (R192, D15; PRESUMED, log 7). -/
def spriteBit (b : Byte) (c : Nat) : Bool := b.getLsbD (7 - c)

/-- One sprite row at origin column ox, screen row cy: columns 0..7, each wrapped (R192). -/
def Canvas.plotRow (cv : Canvas) (ox : Nat) (cy : Fin 32) (b : Byte) : Canvas :=
  (List.range 8).foldl (fun cv c => cv.plot (Fin.ofNat 64 (ox + c)) cy (spriteBit b c)) cv

/-- The sprite rows in address order, from screen row oy on, each row wrapped (R192). -/
def Canvas.plotRows (cv : Canvas) (ox oy : Nat) : List Byte → Canvas
  | [] => cv
  | b :: bs => (cv.plotRow ox (Fin.ofNat 32 oy) b).plotRows ox (oy + 1) bs

/-! ## The inputs of a step (R41, R256; log 1, log 2, log 3) -/

/-- What the environment presents to the next step: the first decided input, else the free values. -/
def State.input (s : State) : Input :=
  match s.inputs with
  | inp :: _ => inp
  | [] =>
    { keyDown := Config.freeKeyDown s.inputCount
      keyPress := Config.freeKeyPress s.inputCount
      rnd := Config.freeRandomByte s.inputCount
      ticks := Config.freeTicks s.inputCount }

/-- One timer counter at a tick: it counts down and holds at zero (R229, D14; PRESUMED, log 8). -/
def tickCounter (b : Byte) : Byte := if b = 0 then 0 else b - 1

/-- One timer counter after n ticks (R229). -/
def tickCounterN : Nat → Byte → Byte
  | 0, b => b
  | n + 1, b => tickCounterN n (tickCounter b)

/-- A counter as n ticks leave it; one at zero stays there however many ticks there are (R229). -/
def elapse (n : Nat) (b : Byte) : Byte := if b = 0 then 0 else tickCounterN n b

/-- `TMR.tick`: both counters at once (R229). -/
def State.tick (s : State) : State := { s with dt := tickCounter s.dt, st := tickCounter s.st }

/-- What lies between a completed step and the next one: the ticks of this step's input, and the next
input takes its place (R229, R257; log 2). -/
def State.between (s : State) : State :=
  { s with
    dt := elapse s.input.ticks s.dt
    st := elapse s.input.ticks s.st
    inputs := s.inputs.tail
    inputCount := s.inputCount + 1 }

/-- The end of a step: a completed step is followed by what lies between (R256, R257). -/
def finishStep : Outcome → Outcome
  | .next s => .next s.between
  | .fault f => .fault f
  | .refused r => .refused r

/-! ## Waiting for a key (R196, R233, R238) -/

/-- A step taken while awaiting a key: an event ends the wait and its key goes to V[kx]; with none,
nothing changes (R196, R256). No fetch, no decode, no fault. -/
def State.awaitStep (s : State) (kx : Nibble) : State :=
  match s.input.keyPress with
  | some k => ((s.setV kx (k.setWidth 8)).advance).setRun .running
  | none => s

/-! ## Fetch (R68) and decode (R93) -/

/-- Fetch (R68): the big-endian word at pc, or the fault of a fetch that passes the end of memory, with
the lowest address out of range. -/
def State.fetch (s : State) : Except Fault Word :=
  if s.pc.toNat > 0x0FFF then .error (.addressOutOfRange s.pc .fetch s.pc)
  else if s.pc.toNat = 0x0FFF then .error (.addressOutOfRange 0x1000 .fetch s.pc)
  else .ok (wordOfBytes (s.readMem s.pc.toNat) (s.readMem (s.pc.toNat + 1)))

/-- Fetch, then decode: the instruction at pc, or the first of the two faults (R220, R256). -/
def State.fetchInstr (s : State) : Except Fault Instr :=
  match s.fetch with
  | .error f => .error f
  | .ok w =>
    match decode w with
    | .error _ => .error (.decodeError w s.pc)
    | .ok i => .ok i

/-- A state that fetches the given bytes next: they stand at pc (at the load origin if pc is where nothing
can be fetched), and the core is not waiting (log 18). -/
def State.placeCode (s : State) (bs : List Byte) : State :=
  let pc : Word := if s.pc.toNat < 0x0FFF then s.pc else 0x0200
  { s with pc := pc, run := .running, mem := Memory.writeBytes s.mem pc.toNat bs }

end Sys2Proof.Machine
end

