-- ==== Sys2Proof/Machine/Operands.lean ====
section
/-! DEFINITION. Operand forms: how a field or a register becomes an address, a target, a key number or a
list of bytes (30_encoding.md R92; 42_memory_block_bcd.md R170). -/

namespace Sys2Proof.Machine

/-- A jump or call target: nnn, zero-extended to the width of pc (R92, R153). -/
def targetOf (nnn : Addr) : Word := nnn.setWidth 16

/-- The target of Bnnn: nnn + V[0] at 16 bits, not reduced modulo 4096 (R159). -/
def State.targetV0 (s : State) (nnn : Addr) : Word := nnn.setWidth 16 + (s.getV 0).setWidth 16

/-- The value Fx1E gives I: (I + V[x]) mod 4096 (R172). -/
def State.indexSum (s : State) (x : Nibble) : Addr := s.i + (s.getV x).setWidth 12

/-- The key number in V[x], if it is one; the whole byte is tested (R193, R194, D9). -/
def State.keyOf (s : State) (x : Nibble) : Except Fault (Fin 16) :=
  if h : (s.getV x).toNat < 16 then .ok ⟨(s.getV x).toNat, h⟩
  else .error (.invalidKeyIndex (s.getV x) s.pc)

/-- The level of key k in this step (R232). -/
def State.keyIsDown (s : State) (k : Fin 16) : Bool := s.input.keyDown.getLsbD k.val

/-- The address of the glyph of the digit in V[x], if it is a digit; the whole byte is tested
(R70, R173, D8). -/
def State.glyphOf (s : State) (x : Nibble) : Except Fault Addr :=
  if (s.getV x).toNat ≤ 0x0F then .ok (BitVec.ofNat 12 (Config.glyphBytes * (s.getV x).toNat))
  else .error (.invalidFontDigit (s.getV x) s.pc)

/-- The decimal digits of a byte, hundreds first (R174). -/
def bcdDigits (b : Byte) : List Byte :=
  [BitVec.ofNat 8 (b.toNat / 100), BitVec.ofNat 8 (b.toNat / 10 % 10), BitVec.ofNat 8 (b.toNat % 10)]

/-- V[0]..V[x] in order (R175). -/
def State.regsUpTo (s : State) (x : Nibble) : List Byte := s.v.toList.take (x.toNat + 1)

/-- The origin of a sprite: column V[x] mod 64, row V[y] mod 32 (R192). -/
def State.originOf (s : State) (x y : Nibble) : Nat × Nat :=
  ((s.getV x).toNat % 64, (s.getV y).toNat % 32)

/-- The sprite: the n bytes from I, a byte a row (R192). -/
def State.spriteRows (s : State) (n : Nibble) : List Byte := Memory.readBytes s.mem (s.ea 0) n.toNat

end Sys2Proof.Machine
end

