-- ==== Sys2Proof/Machine/Flags.lean ====
section
/-! DEFINITION. The flag computations (10_state.md R24) and the common write of flag and result
(40_arithmetic_flag.md R122). -/

namespace Sys2Proof.Machine

/-- The index of VF, the flag register (R21). -/
def flagReg : Nibble := 0xF

/-- A flag as the byte VF holds: 1 or 0 (R24). -/
def flagByte (b : Bool) : Byte := if b then 1 else 0

/-- 8xy4: the exact sum does not fit 8 bits (R129). -/
def carryOut (a b : Byte) : Bool := decide (a.toNat + b.toNat > 255)

/-- 8xy5 and 8xy7: the minuend is strictly greater, unsigned; equal operands give 0 (R130, R132, C8). -/
def strictlyAbove (a b : Byte) : Bool := decide (a.toNat > b.toNat)

/-- 8xy6: the bit shifted out, bit 0 (R131). -/
def lowBit (a : Byte) : Bool := a.getLsbD 0

/-- 8xyE: the bit shifted out, bit 7 (R133). -/
def highBit (a : Byte) : Bool := a.getLsbD 7

/-- VF first, V[x] second, so that with x = 15 the result stays (R122, D4; log 9); then pc + 2. -/
def State.writeFlagged (s : State) (flag : Bool) (x : Nibble) (result : Byte) : State :=
  ((s.setV flagReg (flagByte flag)).setV x result).advance

end Sys2Proof.Machine
end

