-- ==== Sys2Proof/Machine/Arith.lean ====
section
/-! DEFINITION. Arithmetic, logic, shift and flag instructions (40_arithmetic_flag.md). -/

namespace Sys2Proof.Machine

/-- 6xkk (R123). -/
def execLdImm (x : Nibble) (kk : Byte) (s : State) : Outcome := .next (s.setV x kk).advance

/-- 7xkk (R124): no flag. -/
def execAddImm (x : Nibble) (kk : Byte) (s : State) : Outcome :=
  .next (s.setV x (s.getV x + kk)).advance

/-- 8xy0 (R125). -/
def execLdReg (x y : Nibble) (s : State) : Outcome := .next (s.setV x (s.getV y)).advance

/-- 8xy1 (R126): no flag. -/
def execOrReg (x y : Nibble) (s : State) : Outcome :=
  .next (s.setV x (s.getV x ||| s.getV y)).advance

/-- 8xy2 (R127): no flag. -/
def execAndReg (x y : Nibble) (s : State) : Outcome :=
  .next (s.setV x (s.getV x &&& s.getV y)).advance

/-- 8xy3 (R128): no flag. -/
def execXorReg (x y : Nibble) (s : State) : Outcome :=
  .next (s.setV x (s.getV x ^^^ s.getV y)).advance

/-- 8xy4 (R129): VF is the carry. -/
def execAddReg (x y : Nibble) (s : State) : Outcome :=
  .next (s.writeFlagged (carryOut (s.getV x) (s.getV y)) x (s.getV x + s.getV y))

/-- 8xy5 (R130): VF is V[x] > V[y]. -/
def execSub (x y : Nibble) (s : State) : Outcome :=
  .next (s.writeFlagged (strictlyAbove (s.getV x) (s.getV y)) x (s.getV x - s.getV y))

/-- 8xy6 (R131): VF is the old bit 0; y is ignored (R95). -/
def execShr (x _y : Nibble) (s : State) : Outcome :=
  .next (s.writeFlagged (lowBit (s.getV x)) x (s.getV x >>> 1))

/-- 8xy7 (R132): VF is V[y] > V[x]. -/
def execSubn (x y : Nibble) (s : State) : Outcome :=
  .next (s.writeFlagged (strictlyAbove (s.getV y) (s.getV x)) x (s.getV y - s.getV x))

/-- 8xyE (R133): VF is the old bit 7; y is ignored (R95). -/
def execShl (x _y : Nibble) (s : State) : Outcome :=
  .next (s.writeFlagged (highBit (s.getV x)) x (s.getV x <<< 1))

/-- Cxkk (R134): the random byte presented to this step, masked. -/
def execRnd (x : Nibble) (kk : Byte) (s : State) : Outcome :=
  .next (s.setV x (s.input.rnd &&& kk)).advance

end Sys2Proof.Machine
end

