-- ==== Sys2Proof/Machine/Block.lean ====
section
/-! DEFINITION. Address-register, memory-block and BCD instructions (42_memory_block_bcd.md). -/

namespace Sys2Proof.Machine

/-- Annn (R171). -/
def execLdI (nnn : Addr) (s : State) : Outcome := .next (s.setI nnn).advance

/-- Fx1E (R172): no flag. -/
def execAddI (x : Nibble) (s : State) : Outcome := .next (s.setI (s.indexSum x)).advance

/-- Fx29 (R173). -/
def execLdFont (x : Nibble) (s : State) : Outcome :=
  match s.glyphOf x with
  | .error f => raise f
  | .ok a => .next (s.setI a).advance

/-- Fx33 (R174): the checks come before any store (R177). -/
def execBcd (x : Nibble) (s : State) : Outcome :=
  match s.storeFault 3 with
  | some f => raise f
  | none => .next (s.storeAtI (bcdDigits (s.getV x))).advance

/-- Fx55 (R175): the checks come before any store (R177). -/
def execStore (x : Nibble) (s : State) : Outcome :=
  match s.storeFault (x.toNat + 1) with
  | some f => raise f
  | none => .next (s.storeAtI (s.regsUpTo x)).advance

/-- Fx65 (R176): the check comes before any register is written (R177). -/
def execLoad (x : Nibble) (s : State) : Outcome :=
  match s.loadFault (x.toNat + 1) with
  | some f => raise f
  | none => .next (s.setRegs (s.loadRegs (x.toNat + 1))).advance

end Sys2Proof.Machine
end

