-- ==== Sys2Proof/Machine/Control.lean ====
section
/-! DEFINITION. Control-flow instructions (41_control_flow.md). -/

namespace Sys2Proof.Machine

/-- 0nnn (R151): a no-op; nnn is ignored. -/
def execSys (_nnn : Addr) (s : State) : Outcome := .next s.advance

/-- 00EE (R152): the popped word is the call's own address, so 2 is added (R27). -/
def execRet (s : State) : Outcome :=
  match s.pop with
  | .error f => raise f
  | .ok (w, t) => .next (t.setPc (w + 2))

/-- 1nnn (R153). -/
def execJp (nnn : Addr) (s : State) : Outcome := .next (s.setPc (targetOf nnn))

/-- 2nnn (R154): the call's own address is pushed (R27). -/
def execCall (nnn : Addr) (s : State) : Outcome :=
  match s.push s.pc with
  | .error f => raise f
  | .ok t => .next (t.setPc (targetOf nnn))

/-- 3xkk (R155). -/
def execSeImm (x : Nibble) (kk : Byte) (s : State) : Outcome := .next (s.skipIf (s.getV x == kk))

/-- 4xkk (R156). -/
def execSneImm (x : Nibble) (kk : Byte) (s : State) : Outcome := .next (s.skipIf (s.getV x != kk))

/-- 5xy0 (R157). -/
def execSeReg (x y : Nibble) (s : State) : Outcome := .next (s.skipIf (s.getV x == s.getV y))

/-- 9xy0 (R158). -/
def execSneReg (x y : Nibble) (s : State) : Outcome := .next (s.skipIf (s.getV x != s.getV y))

/-- Bnnn (R159). -/
def execJpV0 (nnn : Addr) (s : State) : Outcome := .next (s.setPc (s.targetV0 nnn))

end Sys2Proof.Machine
end

