-- ==== Sys2Proof/Machine/Device.lean ====
section
/-! DEFINITION. Display, keypad and timer instructions (43_display_input_timer.md). -/

namespace Sys2Proof.Machine

/-- 00E0 (R191). -/
def execCls (s : State) : Outcome := .next (s.setFB fbBlank).advance

/-- The canvas after all pixels of the sprite of Dxyn, from the framebuffer before it (R192). -/
def State.drawn (s : State) (x y n : Nibble) : Canvas :=
  Canvas.plotRows ⟨s.fb, false⟩ (s.originOf x y).1 (s.originOf x y).2 (s.spriteRows n)

/-- Dxyn (R192): the check comes before any pixel; VF is written after all pixels. -/
def execDrw (x y n : Nibble) (s : State) : Outcome :=
  match s.loadFault n.toNat with
  | some f => raise f
  | none =>
    .next ((s.setFB (s.drawn x y n).fb).setV flagReg (flagByte (s.drawn x y n).collision)).advance

/-- Ex9E (R193). -/
def execSkp (x : Nibble) (s : State) : Outcome :=
  match s.keyOf x with
  | .error f => raise f
  | .ok k => .next (s.skipIf (s.keyIsDown k))

/-- ExA1 (R194). -/
def execSknp (x : Nibble) (s : State) : Outcome :=
  match s.keyOf x with
  | .error f => raise f
  | .ok k => .next (s.skipIf (!s.keyIsDown k))

/-- Fx07 (R195). -/
def execLdVxDT (x : Nibble) (s : State) : Outcome := .next (s.setV x s.dt).advance

/-- Fx0A, the issuing step (R196): the core waits, pc stays; the event of this step is not looked at. The
steps that follow are `State.awaitStep`. -/
def execLdKey (x : Nibble) (s : State) : Outcome := .next (s.setRun (.awaitingKey x))

/-- Fx15 (R197). -/
def execLdDTVx (x : Nibble) (s : State) : Outcome := .next (s.setDT (s.getV x)).advance

/-- Fx18 (R198). -/
def execLdSTVx (x : Nibble) (s : State) : Outcome := .next (s.setST (s.getV x)).advance

end Sys2Proof.Machine
end

