-- ==== Sys2Proof/Machine/Step.lean ====
section
/-! DEFINITION. One step of the machine (70_reset_and_hazards.md R256), and a state whose next step runs a
given instruction. -/

namespace Sys2Proof.Machine

/-- `Step(env)` (R256): while a key is awaited, only the wait; else fetch, decode, execute. What lies
between this step and the next follows a completed step (R257; log 2). -/
def step (s : State) : Host.Outcome State Fault Refusal :=
  match s.run with
  | .awaitingKey kx => finishStep (.next (s.awaitStep kx))
  | .running =>
    match s.fetchInstr with
    | .error f => raise f
    | .ok i => finishStep (exec i s)

/-- The state with the instruction whose table bits are w placed where the next step fetches (log 18). -/
def State.withFetchWord (s : State) (nbits w : Nat) : State :=
  s.placeCode (bytesOfWord (tableWord nbits w))

end Sys2Proof.Machine
end

