-- ==== Sys2Proof/Machine/Driver.lean ====
section
/-! DEFINITION. The driver's side of the machine: step results, reset of a running machine, program load,
the display view and the four moves of the transition relation (70_reset_and_hazards.md R257). -/

namespace Sys2Proof.Machine

/-- The result of a step on `DRV.result` (R210). -/
inductive StepResult where
  | ok
  | waiting
  | fault (f : Fault)
  deriving DecidableEq, Repr

/-- The result a step's outcome stands for (R210): a completed step that leaves the core awaiting a key is
`Waiting`, any other completed step `Ok`; a refused move has no step result. -/
def resultOf : Outcome → Option StepResult
  | .next s =>
    match s.run with
    | .running => some .ok
    | .awaitingKey _ => some .waiting
  | .fault f => some (.fault f)
  | .refused _ => none

/-- `DRV.reset` of a machine in any state (R250): all its state at the reset values. What the environment
presents is no state of the machine and goes on (log 18). -/
def State.driverReset (s : State) : State := State.reset.setInputs s.inputs s.inputCount

/-- `DRV.load_program(bytes)` (R252, R79): the bytes go to Mem from 0x200 on; an image of more than 3584
bytes is refused and writes nothing (D13). -/
def State.loadProgram (s : State) (bytes : List Byte) : Outcome :=
  if bytes.length > Config.maxProgram then .refused (.programTooLarge bytes.length)
  else .next (s.setMem (Memory.writeBytes s.mem Config.loadOrigin bytes))

/-- `DISP.view` (R235): the pixel at column cx, row cy. -/
def State.view (s : State) (cx : Fin 64) (cy : Fin 32) : Bool := fbGet s.fb cx cy

/-- The four kinds of move (R257). -/
inductive Move where
  /-- A step with the inputs it presents; the ticks that follow it are moves of their own. -/
  | step (keyDown : BitVec 16) (keyPress : Option Nibble) (rnd : Byte)
  | tick
  | reset
  | loadProgram (bytes : List Byte)
  deriving DecidableEq, Repr

/-- One move of the machine (R257). A step sees exactly the inputs of the move and no tick follows it.
The environment makes the load move directly after a reset only (R253, R257), which `Reachable` in
Safety.lean says. -/
def State.move (s : State) : Move → Outcome
  | .step keyDown keyPress rnd =>
    Sys2Proof.Machine.step (s.setInputs (⟨keyDown, keyPress, rnd, 0⟩ :: s.inputs) s.inputCount)
  | .tick => .next s.tick
  | .reset => .next s.driverReset
  | .loadProgram bytes => s.loadProgram bytes

/-- The end of a run (R258, D21): the core runs and the instruction at pc is a jump to itself. -/
def State.endedNormally (s : State) : Bool :=
  match s.run, s.fetchInstr with
  | .running, .ok (.jp nnn) => targetOf nnn == s.pc
  | _, _ => false

end Sys2Proof.Machine
end

