-- ==== Sys2Proof/Safety.lean ====
section
/-! DEFINITION. The terms claims use: pieces of state and frames, which instruction may write what
(10_state.md R22, R26), the invariant of R45, and the reachable states (70_reset_and_hazards.md R257). -/

namespace Sys2Proof.Machine

/-! ## Frames -/

/-- The pieces of state a frame speaks of; `inputs` is the model's own queue and index. -/
inductive Piece where
  | v | i | pc | stack | depth | dt | st | run | mem | fb | inputs
  deriving DecidableEq, Repr

/-- A piece is the same in two states; memory and framebuffer through their reads of one byte, one pixel. -/
def Piece.same (s t : State) : Piece → Prop
  | .v => ∀ j, t.getV j = s.getV j
  | .i => t.i = s.i
  | .pc => t.pc = s.pc
  | .stack => ∀ j : Fin 16, t.stack[j] = s.stack[j]
  | .depth => t.depth = s.depth
  | .dt => t.dt = s.dt
  | .st => t.st = s.st
  | .run => t.run = s.run
  | .mem => ∀ a, t.readMem a = s.readMem a
  | .fb => ∀ cx cy, t.view cx cy = s.view cx cy
  | .inputs => t.inputs = s.inputs ∧ t.inputCount = s.inputCount

/-- Everything but the listed pieces is as it was. -/
def Frame (changed : List Piece) (s t : State) : Prop := ∀ p, p ∉ changed → p.same s t

/-- The general registers but those of the list are as they were. -/
def SameRegsBut (xs : List Nibble) (s t : State) : Prop := ∀ j, j ∉ xs → t.getV j = s.getV j

/-- An outcome with another queue of inputs in its next state. -/
def withInputs (q : List Input) (n : Nat) : Outcome → Outcome
  | .next s => .next (s.setInputs q n)
  | .fault f => .fault f
  | .refused r => .refused r

/-! ## Which instruction writes what -/

/-- The general registers an instruction may write (R22): V[x], VF as the flag, V[0]..V[x]. Fx0A writes
V[x] only in the later step that receives the key. -/
def mayWriteV (j : Nibble) : Instr → Bool
  | .ldImm x _ | .addImm x _ | .ldReg x _ | .orReg x _ | .andReg x _ | .xorReg x _ | .rnd x _
  | .ldVxDT x => j == x
  | .addReg x _ | .sub x _ | .shr x _ | .subn x _ | .shl x _ => j == x || j == 0xF
  | .drw _ _ _ => j == 0xF
  | .load x => j.toNat ≤ x.toNat
  | .cls | .ret | .sys _ | .jp _ | .call _ | .seImm _ _ | .sneImm _ _ | .seReg _ _ | .sneReg _ _
  | .ldI _ | .jpV0 _ | .skp _ | .sknp _ | .ldKey _ | .ldDTVx _ | .ldSTVx _ | .addI _ | .ldFont _
  | .bcd _ | .store _ => false

/-- How an instruction advances pc (R26). -/
inductive PcRule where
  /-- pc + 2. -/
  | byTwo
  /-- pc + 2 or pc + 4. -/
  | skip
  /-- pc unchanged: Fx0A in its issuing step. -/
  | stay
  /-- The target the instruction computes: 1nnn, 2nnn, Bnnn, 00EE. -/
  | transfer
  deriving DecidableEq, Repr

/-- The list of R26. -/
def pcRule : Instr → PcRule
  | .jp _ | .call _ | .jpV0 _ | .ret => .transfer
  | .seImm _ _ | .sneImm _ _ | .seReg _ _ | .sneReg _ _ | .skp _ | .sknp _ => .skip
  | .ldKey _ => .stay
  | .cls | .sys _ | .ldImm _ _ | .addImm _ _ | .ldReg _ _ | .orReg _ _ | .andReg _ _ | .xorReg _ _
  | .addReg _ _ | .sub _ _ | .shr _ _ | .subn _ _ | .shl _ _ | .ldI _ | .rnd _ _ | .drw _ _ _
  | .ldVxDT _ | .ldDTVx _ | .ldSTVx _ | .addI _ | .ldFont _ | .bcd _ | .store _ | .load _ => .byTwo

/-! ## The invariant (R45) and the reachable states (R257) -/

/-- What R45 says beyond what the types of State say: the memory list is canonical (the model's own
form), the area below 0x200 holds its reset contents, and while a key is awaited the instruction at
pc is the Fx0A that waits. -/
structure State.Inv (s : State) : Prop where
  wf : Memory.wf s.mem = true
  reserved : ∀ a, a < Config.loadOrigin → s.readMem a = Config.resetByte a
  waiting : ∀ kx, s.run = .awaitingKey kx → s.fetchInstr = .ok (.ldKey kx)

/-- The states the machine can be in (R253, R257, R239): after reset, after a load that directly follows a
reset, and after any step, tick or reset. `step` presents the environment's own choice of inputs. -/
inductive Reachable : State → Prop where
  | boot : Reachable State.reset
  | step {s t : State} : Reachable s → Sys2Proof.Machine.step s = .next t → Reachable t
  | move {s t : State} (keyDown : BitVec 16) (keyPress : Option Nibble) (rnd : Byte) :
      Reachable s → s.move (.step keyDown keyPress rnd) = .next t → Reachable t
  | tick {s : State} : Reachable s → Reachable s.tick
  | reset {s : State} : Reachable s → Reachable s.driverReset
  | resetLoad {s t : State} (bytes : List Byte) :
      Reachable s → s.driverReset.loadProgram bytes = .next t → Reachable t

end Sys2Proof.Machine
end

