-- ==== Sys2Proof/Certificates/Slice0/Obligations.lean ====
section
/-! DEFINITION. The statements for the provers. Each docstring names the rules of spec/ it formalises; where a
clause rests on one of the spec's own decisions (D<n>) or on a choice of the model, the docstring says so
and names the log entry. -/

open Sys2Proof Sys2Proof.Machine

/-! ## Encoding -/

/-- A few words written out from the opcode map (R94) decode to the instruction they stand for. -/
def Obligations.SampleWordsDecode : Prop :=
  decode 0x00E0 = .ok .cls ∧ decode 0x220A = .ok (.call 0x20A) ∧
  decode 0x7302 = .ok (.addImm 0x3 0x02) ∧ decode 0x8AB5 = .ok (.sub 0xA 0xB) ∧
  decode 0xA300 = .ok (.ldI 0x300) ∧ decode 0xD125 = .ok (.drw 0x1 0x2 0x5) ∧
  decode 0xE59E = .ok (.skp 0x5) ∧ decode 0xF165 = .ok (.load 0x1) ∧
  decode 0x8008 = .error (.family8 0x8008)

/-- Decoding the encoded word of a well-formed instruction gives it back: no bit of an encoding is
dropped (R93, R94; the ignored fields are kept, log 22). -/
def Obligations.DecodeOfEncode : Prop :=
  ∀ i : Instr, i.wellFormed = true → decode (encode i) = .ok i

/-- Every legal word is the encoding of the well-formed instruction it decodes to: each word has one
meaning (R93, R94; log 22). -/
def Obligations.EncodeOfDecode : Prop :=
  ∀ (w : Word) (i : Instr), decode w = .ok i → i.wellFormed = true ∧ encode i = w

/-- The illegal words are exactly those of R96's table (families 5 and 9 by decision D5, log 11). -/
def Obligations.IllegalWordsExactly : Prop :=
  ∀ w : Word,
    (∃ e, decode w = .error e) ↔
      (w.toNat / 4096 = 5 ∧ w.toNat % 16 ≠ 0) ∨
      (w.toNat / 4096 = 8 ∧ w.toNat % 16 ∈ [0x8, 0x9, 0xA, 0xB, 0xC, 0xD, 0xF]) ∨
      (w.toNat / 4096 = 9 ∧ w.toNat % 16 ≠ 0) ∨
      (w.toNat / 4096 = 0xE ∧ w.toNat % 256 ∉ [0x9E, 0xA1]) ∨
      (w.toNat / 4096 = 0xF ∧
        w.toNat % 256 ∉ [0x07, 0x0A, 0x15, 0x18, 0x1E, 0x29, 0x33, 0x55, 0x65])

/-! ## The step -/

/-- A step that fetches the word of an instruction is that instruction's execution, followed by what lies
between two steps (R256, fetch and execute fused by D1, log 17; the ticks of log 2). -/
def Obligations.StepRunsDecodedInstruction : Prop :=
  ∀ (s : State) (i : Instr), s.run = .running → s.pc.toNat ≤ 0xFFE →
    decode (wordOfBytes (s.readMem s.pc.toNat) (s.readMem (s.pc.toNat + 1))) = .ok i →
    (∀ t, exec i s = .next t → step s = .next t.between) ∧
    (∀ f, exec i s = .fault f → step s = .fault f)

/-- Between two steps only the timers move, each by the input's number of ticks and never below zero
(R229; holding at zero is D14, log 8), and the next input takes its place (log 1, log 2). -/
def Obligations.BetweenStepsOnlyTimersMove : Prop :=
  ∀ s : State,
    Frame [.dt, .st, .inputs] s s.between ∧
    s.between.dt.toNat = s.dt.toNat - s.input.ticks ∧
    s.between.st.toNat = s.st.toNat - s.input.ticks ∧
    s.between.inputs = s.inputs.tail

/-- A fetch at 0xFFF or above faults with the lowest address out of range (R68; decision D2, log 10). -/
def Obligations.FetchPastMemoryFaults : Prop :=
  ∀ s : State, s.run = .running → 0xFFE < s.pc.toNat →
    step s = .fault (.addressOutOfRange (if s.pc.toNat = 0xFFF then 0x1000 else s.pc) .fetch s.pc)

/-- A fetched word that is no instruction faults with the word (R212; families 5 and 9 by D5, log 11). -/
def Obligations.IllegalWordFaults : Prop :=
  ∀ (s : State) (e : DecodeError), s.run = .running → s.pc.toNat ≤ 0xFFE →
    decode (wordOfBytes (s.readMem s.pc.toNat) (s.readMem (s.pc.toNat + 1))) = .error e →
    step s =
      .fault (.decodeError (wordOfBytes (s.readMem s.pc.toNat) (s.readMem (s.pc.toNat + 1))) s.pc)

/-- A step taken while a key is awaited always completes: with a key-press event the key goes to V[kx],
pc advances by 2 and the core runs again; with none nothing changes (R196, R256; protocol D10, log 16). The ticks
and the next input follow (log 1, log 2). -/
def Obligations.AwaitingStepTakesKey : Prop :=
  ∀ (s : State) (kx : Nibble), s.run = .awaitingKey kx →
    ∃ u, step s = .next u.between ∧ Frame [.v, .pc, .run] s u ∧
      (∀ k, s.input.keyPress = some k →
        (u.getV kx).toNat = k.toNat ∧ SameRegsBut [kx] s u ∧ u.pc = s.pc + 2 ∧ u.run = .running) ∧
      (s.input.keyPress = none → u = s)

/-- A step is never refused, and never raises the fault cause that R216 calls unreachable. -/
def Obligations.StepNeverRefused : Prop :=
  ∀ s : State, (∀ r, step s ≠ .refused r) ∧ step s ≠ .fault .invalidRegisterIndex

/-- A fault depends on no environment input: with any other inputs the same step faults the same way
(R222). -/
def Obligations.FaultsIndependentOfInputs : Prop :=
  ∀ (s : State) (f : Fault) (q : List Input) (n : Nat),
    step s = .fault f → step (s.setInputs q n) = .fault f

/-- The random byte is read only by Cxkk and the key levels only by Ex9E and ExA1; every other instruction
gives the same outcome whatever the environment presents (R256). -/
def Obligations.InputsReadOnlyWhereNamed : Prop :=
  ∀ (i : Instr) (s : State) (q : List Input) (n : Nat),
    ((∃ x kk, i = .rnd x kk) → (s.setInputs q n).input.rnd = s.input.rnd) →
    ((∃ x, i = .skp x ∨ i = .sknp x) → (s.setInputs q n).input.keyDown = s.input.keyDown) →
    exec i (s.setInputs q n) = withInputs q n (exec i s)

/-! ## Arithmetic, logic, shift -/

/-- 6xkk (R123). -/
def Obligations.LoadImmediate : Prop :=
  ∀ (s : State) (x : Nibble) (kk : Byte), ∃ t, exec (.ldImm x kk) s = .next t ∧
    t.getV x = kk ∧ SameRegsBut [x] s t ∧ t.pc = s.pc + 2 ∧ Frame [.v, .pc] s t

/-- 7xkk, and 6xkk followed by 7xkk (R124). VF is no carry: it changes only as destination. -/
def Obligations.AddImmediate : Prop :=
  (∀ (s : State) (x : Nibble) (kk : Byte), ∃ t, exec (.addImm x kk) s = .next t ∧
    (t.getV x).toNat = ((s.getV x).toNat + kk.toNat) % 256 ∧ SameRegsBut [x] s t ∧
    t.pc = s.pc + 2 ∧ Frame [.v, .pc] s t) ∧
  (∀ (s : State) (x : Nibble) (kk kk2 : Byte), ∃ t u, exec (.ldImm x kk) s = .next t ∧
    exec (.addImm x kk2) t = .next u ∧ (u.getV x).toNat = (kk.toNat + kk2.toNat) % 256 ∧
    (x ≠ 0xF → u.getV 0xF = s.getV 0xF))

/-- 8xy0, 8xy1, 8xy2, 8xy3: no flag is written (R125, R126, R127, R128). -/
def Obligations.MoveAndLogic : Prop :=
  ∀ (s : State) (x y : Nibble) (i : Instr) (r : Byte),
    (i = .ldReg x y ∧ r = s.getV y ∨ i = .orReg x y ∧ r = s.getV x ||| s.getV y ∨
      i = .andReg x y ∧ r = s.getV x &&& s.getV y ∨ i = .xorReg x y ∧ r = s.getV x ^^^ s.getV y) →
    ∃ t, exec i s = .next t ∧ t.getV x = r ∧ SameRegsBut [x] s t ∧ t.pc = s.pc + 2 ∧
      Frame [.v, .pc] s t

/-- 8xy4: the exact sum is the carry and the result together; with x = 15 the result stays in VF
(R129, R122; the order for x or y = 15 is decision D4, log 9). -/
def Obligations.AddWithCarry : Prop :=
  ∀ (s : State) (x y : Nibble), ∃ t, exec (.addReg x y) s = .next t ∧
    (t.getV x).toNat = ((s.getV x).toNat + (s.getV y).toNat) % 256 ∧
    (x ≠ 0xF →
      256 * (t.getV 0xF).toNat + (t.getV x).toNat = (s.getV x).toNat + (s.getV y).toNat) ∧
    SameRegsBut [x, 0xF] s t ∧ t.pc = s.pc + 2 ∧ Frame [.v, .pc] s t

/-- 8xy5 and 8xy7: difference modulo 256, flag by the strict unsigned comparison, 0 for equal operands
(R130, R132, R121; the order for x or y = 15 is decision D4, log 9). -/
def Obligations.SubtractBothWays : Prop :=
  ∀ (s : State) (x y : Nibble) (i : Instr) (a b : Byte),
    (i = .sub x y ∧ a = s.getV x ∧ b = s.getV y ∨ i = .subn x y ∧ a = s.getV y ∧ b = s.getV x) →
    ∃ t, exec i s = .next t ∧
      ((t.getV x).toNat : Int) = ((a.toNat : Int) - b.toNat) % 256 ∧
      (x ≠ 0xF → t.getV 0xF = if b.toNat < a.toNat then 1 else 0) ∧
      SameRegsBut [x, 0xF] s t ∧ t.pc = s.pc + 2 ∧ Frame [.v, .pc] s t

/-- 8xy6 and 8xyE: one logical place, the bit shifted out goes to VF, y is ignored (R131, R133, R95; the
order for x = 15 is decision D4, log 9). -/
def Obligations.ShiftByOne : Prop :=
  (∀ (s : State) (x y : Nibble), ∃ t, exec (.shr x y) s = .next t ∧
    (t.getV x).toNat = (s.getV x).toNat / 2 ∧
    (x ≠ 0xF → (t.getV 0xF).toNat = (s.getV x).toNat % 2) ∧
    SameRegsBut [x, 0xF] s t ∧ t.pc = s.pc + 2 ∧ Frame [.v, .pc] s t) ∧
  (∀ (s : State) (x y : Nibble), ∃ t, exec (.shl x y) s = .next t ∧
    (t.getV x).toNat = 2 * (s.getV x).toNat % 256 ∧
    (x ≠ 0xF → (t.getV 0xF).toNat = (s.getV x).toNat / 128) ∧
    SameRegsBut [x, 0xF] s t ∧ t.pc = s.pc + 2 ∧ Frame [.v, .pc] s t)

/-- Cxkk: the random byte presented to this step, whatever it is, masked by kk; no bit is set that kk
lacks (R134). -/
def Obligations.RandomAnd : Prop :=
  ∀ (s : State) (x : Nibble) (kk : Byte), ∃ t, exec (.rnd x kk) s = .next t ∧
    t.getV x = s.input.rnd &&& kk ∧ t.getV x &&& ~~~kk = 0 ∧
    SameRegsBut [x] s t ∧ t.pc = s.pc + 2 ∧ Frame [.v, .pc] s t

/-! ## Control flow -/

/-- 0nnn: a no-op for every nnn, and every word with first nibble 0 but 00E0 and 00EE is one (R151). -/
def Obligations.SystemCallIsNoOp : Prop :=
  (∀ w : Word, w.toNat / 4096 = 0 → w ≠ 0x00E0 → w ≠ 0x00EE →
    decode w = .ok (.sys (w.setWidth 12))) ∧
  (∀ (s : State) (nnn : Addr), ∃ t, exec (.sys nnn) s = .next t ∧ t.pc = s.pc + 2 ∧
    Frame [.pc] s t)

/-- 1nnn and Bnnn: absolute targets, no +2; nnn + V[0] is not reduced modulo 4096 (R153, R159). -/
def Obligations.JumpTargets : Prop :=
  (∀ (s : State) (nnn : Addr), ∃ t, exec (.jp nnn) s = .next t ∧ t.pc.toNat = nnn.toNat ∧
    Frame [.pc] s t) ∧
  (∀ (s : State) (nnn : Addr), ∃ t, exec (.jpV0 nnn) s = .next t ∧
    t.pc.toNat = nnn.toNat + (s.getV 0).toNat ∧ Frame [.pc] s t)

/-- 2nnn: with room the call's own address is pushed and pc is nnn; with 16 frames in use it faults
(R154). -/
def Obligations.CallPushesOrOverflows : Prop :=
  ∀ (s : State) (nnn : Addr),
    (s.sp = 15 → exec (.call nnn) s = .fault (.stackOverflow s.pc)) ∧
    (s.sp < 15 → ∃ t, exec (.call nnn) s = .next t ∧ t.sp = s.sp + 1 ∧
      (∀ j : Fin 16, t.stack[j] = if (j.val : Int) = t.sp then s.pc else s.stack[j]) ∧
      t.pc.toNat = nnn.toNat ∧ Frame [.stack, .depth, .pc] s t)

/-- 00EE: pc is the popped word + 2 and the slot keeps its content; on an empty stack it faults
(R152). -/
def Obligations.ReturnPopsOrUnderflows : Prop :=
  ∀ s : State,
    (s.sp = -1 → exec .ret s = .fault (.stackUnderflow s.pc)) ∧
    (∀ j : Fin 16, s.sp = (j.val : Int) → ∃ t, exec .ret s = .next t ∧ t.sp = s.sp - 1 ∧
      t.pc = s.stack[j] + 2 ∧ Frame [.depth, .pc] s t)

/-- A call and the return at its target, two steps: control is back after the call, the stack pointer at
its value before it, registers, I, memory and framebuffer untouched (R27, R152, R154). -/
def Obligations.CallThenReturn : Prop :=
  ∀ (s : State) (nnn : Addr), s.run = .running → s.pc.toNat ≤ 0xFFE → nnn.toNat ≤ 0xFFE →
    decode (wordOfBytes (s.readMem s.pc.toNat) (s.readMem (s.pc.toNat + 1))) = .ok (.call nnn) →
    wordOfBytes (s.readMem nnn.toNat) (s.readMem (nnn.toNat + 1)) = 0x00EE → s.sp < 15 →
    ∃ t u, step s = .next t ∧ step t = .next u ∧ u.pc = s.pc + 2 ∧ u.sp = s.sp ∧
      Frame [.pc, .stack, .dt, .st, .inputs] s u

/-- 3xkk, 4xkk, 5xy0, 9xy0: pc + 4 if the comparison of the registers' contents holds, else pc + 2
(R155, R156, R157, R158). -/
def Obligations.CompareSkips : Prop :=
  ∀ (s : State) (x y : Nibble) (kk : Byte) (i : Instr) (c : Prop),
    (i = .seImm x kk ∧ (c ↔ s.getV x = kk) ∨ i = .sneImm x kk ∧ (c ↔ s.getV x ≠ kk) ∨
      i = .seReg x y ∧ (c ↔ s.getV x = s.getV y) ∨ i = .sneReg x y ∧ (c ↔ s.getV x ≠ s.getV y)) →
    ∃ t, exec i s = .next t ∧ (c → t.pc = s.pc + 4) ∧ (¬c → t.pc = s.pc + 2) ∧ Frame [.pc] s t

/-! ## Address register, memory blocks, BCD -/

/-- Annn and Fx1E: I is nnn, or (I + V[x]) mod 4096 without a flag (R171, R172). -/
def Obligations.AddressRegister : Prop :=
  (∀ (s : State) (nnn : Addr), ∃ t, exec (.ldI nnn) s = .next t ∧ t.i = nnn ∧
    t.pc = s.pc + 2 ∧ Frame [.i, .pc] s t) ∧
  (∀ (s : State) (x : Nibble), ∃ t, exec (.addI x) s = .next t ∧
    t.i.toNat = (s.i.toNat + (s.getV x).toNat) % 4096 ∧ t.pc = s.pc + 2 ∧ Frame [.i, .pc] s t)

/-- Fx29: I is the address of the digit's glyph; a value above 15 faults, whole byte tested (R173, R70;
the fault is decision D8, log 13). -/
def Obligations.FontGlyphAddress : Prop :=
  ∀ (s : State) (x : Nibble),
    ((s.getV x).toNat ≤ 15 → ∃ t, exec (.ldFont x) s = .next t ∧
      t.i.toNat = 5 * (s.getV x).toNat ∧ t.pc = s.pc + 2 ∧ Frame [.i, .pc] s t) ∧
    (15 < (s.getV x).toNat →
      exec (.ldFont x) s = .fault (.invalidFontDigit (s.getV x) s.pc))

/-- Fx33: the three decimal digits of V[x] at I, I + 1, I + 2, every other byte as before (R174; the bound
below is D7, log 12). -/
def Obligations.BcdStoresDigits : Prop :=
  ∀ (s : State) (x : Nibble), 0x200 ≤ s.i.toNat → s.i.toNat + 2 ≤ 0xFFF →
    ∃ t, exec (.bcd x) s = .next t ∧
      100 * (t.readMem s.i.toNat).toNat + 10 * (t.readMem (s.i.toNat + 1)).toNat +
        (t.readMem (s.i.toNat + 2)).toNat = (s.getV x).toNat ∧
      (t.readMem s.i.toNat).toNat ≤ 2 ∧ (t.readMem (s.i.toNat + 1)).toNat ≤ 9 ∧
      (t.readMem (s.i.toNat + 2)).toNat ≤ 9 ∧
      (∀ a, a < s.i.toNat ∨ s.i.toNat + 2 < a → t.readMem a = s.readMem a) ∧
      t.pc = s.pc + 2 ∧ Frame [.mem, .pc] s t

/-- Fx55: V[0]..V[x] at I..I+x, every other byte as before, I unchanged (R175; the bound below is D7,
log 12). -/
def Obligations.StoreRegisters : Prop :=
  ∀ (s : State) (x : Nibble), 0x200 ≤ s.i.toNat → s.i.toNat + x.toNat ≤ 0xFFF →
    ∃ t, exec (.store x) s = .next t ∧
      (∀ j : Nibble, j.toNat ≤ x.toNat → t.readMem (s.i.toNat + j.toNat) = s.getV j) ∧
      (∀ a, a < s.i.toNat ∨ s.i.toNat + x.toNat < a → t.readMem a = s.readMem a) ∧
      t.pc = s.pc + 2 ∧ Frame [.mem, .pc] s t

/-- Fx33 and Fx55 out of range: past 0xFFF the fault names 0x1000, below 0x200 it names I; nothing is
stored (R66, R67, R177; decisions D6 and D7, log 12, log 14). -/
def Obligations.StoreOutOfRangeFaults : Prop :=
  ∀ (s : State) (x : Nibble) (i : Instr) (len : Nat),
    (i = .bcd x ∧ len = 3 ∨ i = .store x ∧ len = x.toNat + 1) →
    (0xFFF < s.i.toNat + (len - 1) → exec i s = .fault (.addressOutOfRange 0x1000 .store s.pc)) ∧
    (s.i.toNat < 0x200 →
      ∃ a : Word, exec i s = .fault (.addressOutOfRange a .store s.pc) ∧ a.toNat = s.i.toNat)

/-- Fx65: V[0]..V[x] from I..I+x, the registers above x and everything else as before; a range past 0xFFF
faults (R176). -/
def Obligations.LoadRegisters : Prop :=
  ∀ (s : State) (x : Nibble),
    (s.i.toNat + x.toNat ≤ 0xFFF → ∃ t, exec (.load x) s = .next t ∧
      (∀ j : Nibble, t.getV j =
        if j.toNat ≤ x.toNat then s.readMem (s.i.toNat + j.toNat) else s.getV j) ∧
      t.pc = s.pc + 2 ∧ Frame [.v, .pc] s t) ∧
    (0xFFF < s.i.toNat + x.toNat →
      exec (.load x) s = .fault (.addressOutOfRange 0x1000 .load s.pc))

/-- Storing registers and loading them back with the same x and I changes no register (R175, R176). -/
def Obligations.StoreThenLoadKeepsRegisters : Prop :=
  ∀ (s : State) (x : Nibble), 0x200 ≤ s.i.toNat → s.i.toNat + x.toNat ≤ 0xFFF →
    ∃ t u, exec (.store x) s = .next t ∧ exec (.load x) t = .next u ∧ u.i = s.i ∧
      ∀ j, u.getV j = s.getV j

/-- No step of any state writes below 0x200: the font and the reserved area stay (R67, decision D7,
log 12). -/
def Obligations.ReservedAreaNeverWritten : Prop :=
  ∀ (s t : State), step s = .next t → ∀ a, a < 0x200 → t.readMem a = s.readMem a

/-! ## Display, keypad, timers -/

/-- 00E0: every pixel unset, nothing else touched; twice is as once (R191). -/
def Obligations.ClearScreen : Prop :=
  ∀ s : State, ∃ t u, exec .cls s = .next t ∧ (∀ cx cy, t.view cx cy = false) ∧
    t.pc = s.pc + 2 ∧ Frame [.fb, .pc] s t ∧ exec .cls t = .next u ∧ Piece.fb.same t u

/-- The sprite bit of Dxyn that falls on a pixel, false where the sprite does not reach it (R192): the
column and row of the pixel seen from the origin (V[x] mod 64, V[y] mod 32), wrapping. -/
def spriteBitAt (s : State) (x y n : Nibble) (cx : Fin 64) (cy : Fin 32) : Bool :=
  let c := (cx.val + 64 - (s.getV x).toNat % 64) % 64
  let r := (cy.val + 32 - (s.getV y).toNat % 32) % 32
  decide (c < 8) && decide (r < n.toNat) && (s.readMem (s.i.toNat + r)).getLsbD (7 - c)

/-- Dxyn: each pixel is its old value XOR the sprite bit that falls on it, wrapping at the edges; VF is 1
exactly if some set pixel became unset, else 0; n = 0 draws nothing (R192; bit 7 leftmost is D15, log 7;
the pixel loops of the model are replaced by one formula). -/
def Obligations.DrawComposesByXor : Prop :=
  ∀ (s : State) (x y n : Nibble), n = 0 ∨ s.i.toNat + n.toNat ≤ 0x1000 →
    ∃ t, exec (.drw x y n) s = .next t ∧
      (∀ cx cy, t.view cx cy = (s.view cx cy != spriteBitAt s x y n cx cy)) ∧
      (t.getV 0xF = 1 ∧ (∃ cx cy, s.view cx cy = true ∧ t.view cx cy = false) ∨
        t.getV 0xF = 0 ∧ ¬∃ cx cy, s.view cx cy = true ∧ t.view cx cy = false) ∧
      SameRegsBut [0xF] s t ∧ t.pc = s.pc + 2 ∧ Frame [.v, .fb, .pc] s t

/-- Dxyn with a sprite that runs past 0xFFF faults, with no pixel drawn (R192, R177; D6, log 14). -/
def Obligations.DrawPastMemoryFaults : Prop :=
  ∀ (s : State) (x y n : Nibble), n ≠ 0 → 0x1000 < s.i.toNat + n.toNat →
    exec (.drw x y n) s = .fault (.addressOutOfRange 0x1000 .load s.pc)

/-- Drawing the same sprite at the same place twice gives the screen back (R192), for coordinates not held
in VF, which the first draw changes. -/
def Obligations.DrawTwiceRestoresScreen : Prop :=
  ∀ (s : State) (x y n : Nibble), x ≠ 0xF → y ≠ 0xF → n = 0 ∨ s.i.toNat + n.toNat ≤ 0x1000 →
    ∃ t u, exec (.drw x y n) s = .next t ∧ exec (.drw x y n) t = .next u ∧
      Frame [.v, .pc] s u ∧ SameRegsBut [0xF] s u

/-- Ex9E and ExA1: the level of the key numbered by the whole byte V[x] decides between pc + 4 and pc + 2;
a value above 15 faults (R193, R194, R232; the fault is decision D9, log 13). -/
def Obligations.KeySkips : Prop :=
  ∀ (s : State) (x : Nibble),
    ((s.getV x).toNat ≤ 15 →
      (∃ t, exec (.skp x) s = .next t ∧ Frame [.pc] s t ∧
        t.pc = if s.input.keyDown.getLsbD (s.getV x).toNat then s.pc + 4 else s.pc + 2) ∧
      (∃ t, exec (.sknp x) s = .next t ∧ Frame [.pc] s t ∧
        t.pc = if s.input.keyDown.getLsbD (s.getV x).toNat then s.pc + 2 else s.pc + 4)) ∧
    (15 < (s.getV x).toNat →
      exec (.skp x) s = .fault (.invalidKeyIndex (s.getV x) s.pc) ∧
      exec (.sknp x) s = .fault (.invalidKeyIndex (s.getV x) s.pc))

/-- Fx07, Fx15, Fx18: the timers are read and overwritten, never advanced (R195, R197, R198). -/
def Obligations.TimerRegisters : Prop :=
  ∀ (s : State) (x : Nibble),
    (∃ t, exec (.ldVxDT x) s = .next t ∧ t.getV x = s.dt ∧ SameRegsBut [x] s t ∧
      t.pc = s.pc + 2 ∧ Frame [.v, .pc] s t) ∧
    (∃ t, exec (.ldDTVx x) s = .next t ∧ t.dt = s.getV x ∧ t.pc = s.pc + 2 ∧
      Frame [.dt, .pc] s t) ∧
    (∃ t, exec (.ldSTVx x) s = .next t ∧ t.st = s.getV x ∧ t.pc = s.pc + 2 ∧
      Frame [.st, .pc] s t)

/-- Fx0A, its issuing step: the core waits for the key of V[x], pc and all else stay, an event of this step
is not consumed into a register (R196; decision D10, log 16). -/
def Obligations.WaitForKeyIssues : Prop :=
  ∀ (s : State) (x : Nibble), ∃ t, exec (.ldKey x) s = .next t ∧ t.run = .awaitingKey x ∧
    Frame [.run] s t

/-- A whole key wait, three steps: Fx0A issues, a step without an event changes nothing, the step with
event k puts k into V[x] and goes on after the Fx0A (R196; protocol D10, log 16). The inputs are any three
with no event in the second and event k in the third. The clause on DT rests on more choices: the ticks
of an input follow its step (log 2, inputs queued by log 1), and a timer holds at zero (D14, log 8). -/
def Obligations.KeyWaitCompletes : Prop :=
  ∀ (s : State) (x k : Nibble) (a b c : Input) (q : List Input),
    s.run = .running → s.pc.toNat ≤ 0xFFE → s.inputs = a :: b :: c :: q →
    b.keyPress = none → c.keyPress = some k →
    decode (wordOfBytes (s.readMem s.pc.toNat) (s.readMem (s.pc.toNat + 1))) = .ok (.ldKey x) →
    ∃ t u w, step s = .next t ∧ resultOf (step s) = some .waiting ∧ t.pc = s.pc ∧
      step t = .next u ∧ resultOf (step t) = some .waiting ∧ u.pc = s.pc ∧
      step u = .next w ∧ resultOf (step u) = some .ok ∧ w.pc = s.pc + 2 ∧
      (w.getV x).toNat = k.toNat ∧ SameRegsBut [x] s w ∧ w.run = .running ∧
      w.dt.toNat = s.dt.toNat - (a.ticks + b.ticks + c.ticks)

/-- One tick: each timer goes down by one and holds at zero, nothing else changes (R229; the hold is D14,
log 8). -/
def Obligations.TickCountsDown : Prop :=
  ∀ s : State, s.tick.dt.toNat = s.dt.toNat - 1 ∧ s.tick.st.toNat = s.st.toNat - 1 ∧
    Frame [.dt, .st] s s.tick

/-! ## Reset, load, end of run -/

/-- The state after reset (R42, R250): pc, sp and glyph A are the source's, the zeros are decision D12
(log 5); that every address from 80 on reads 0, past 0xFFF too, is the model's memory (log 20). From any
state `DRV.reset` leads there, up to the inputs the environment presents: that reset is construction is
decision D13 (log 18), and its last clause takes in the call-stack slots, which R42 leaves unspecified and
the model sets to 0 (log 4), and the font, whose glyphs but A are the spec's default (log 6). -/
def Obligations.ResetValues : Prop :=
  (∀ j, State.reset.getV j = 0) ∧ State.reset.i = 0 ∧ State.reset.pc = 0x200 ∧
  State.reset.sp = -1 ∧ State.reset.dt = 0 ∧ State.reset.st = 0 ∧ State.reset.run = .running ∧
  (∀ cx cy, State.reset.view cx cy = false) ∧
  (Memory.readBytes State.reset.mem 50 5 = [0xF0, 0x90, 0xF0, 0x90, 0x90]) ∧
  (∀ a, 80 ≤ a → State.reset.readMem a = 0) ∧
  (∀ s : State, Frame [.inputs] State.reset s.driverReset)

/-- Program load: byte k goes to 0x200 + k and nothing else changes; more than 3584 bytes are refused
(R252; the refusal without partial load is decision D13, log 18). -/
def Obligations.LoadProgramPlacesBytes : Prop :=
  ∀ (s : State) (bytes : List Byte),
    (bytes.length ≤ 3584 → ∃ t, s.loadProgram bytes = .next t ∧
      (∀ k (h : k < bytes.length), t.readMem (0x200 + k) = bytes[k]) ∧
      (∀ a, a < 0x200 ∨ 0x200 + bytes.length ≤ a → t.readMem a = s.readMem a) ∧
      Frame [.mem] s t) ∧
    (3584 < bytes.length → s.loadProgram bytes = .refused (.programTooLarge bytes.length))

/-- A run that has ended normally stays where it is: a step from a jump to itself changes only what the
ticks change (R258, the spec's convention D21). -/
def Obligations.SelfJumpChangesNothing : Prop :=
  ∀ s : State, s.endedNormally = true →
    ∃ t, step s = .next t ∧ resultOf (step s) = some .ok ∧ Frame [.dt, .st, .inputs] s t ∧
      t.endedNormally = true

/-! ## Rules of the whole machine -/

/-- Memory is written by Fx33 and Fx55 only (R39, R65). -/
def Obligations.OnlyBlockStoresWriteMemory : Prop :=
  ∀ (i : Instr) (s t : State), exec i s = .next t →
    (∀ x, i ≠ .bcd x) → (∀ x, i ≠ .store x) → Piece.mem.same s t

/-- The framebuffer is written by 00E0 and Dxyn only (R38). -/
def Obligations.OnlyDisplayWritesFramebuffer : Prop :=
  ∀ (i : Instr) (s t : State), exec i s = .next t →
    i ≠ .cls → (∀ x y n, i ≠ .drw x y n) → Piece.fb.same s t

/-- The call stack and its pointer are touched by 2nnn and 00EE only, and a return clears no slot
(R29, R30, R31). -/
def Obligations.OnlyCallReturnTouchStack : Prop :=
  ∀ (i : Instr) (s t : State), exec i s = .next t → (∀ nnn, i ≠ .call nnn) →
    Piece.stack.same s t ∧ (i ≠ .ret → Piece.depth.same s t)

/-- I is written by Annn, Fx1E and Fx29 only; DT by Fx15, ST by Fx18 only; run by Fx0A only; no
instruction touches the environment's inputs (R23, R32, R33, R35, R41). -/
def Obligations.AddressTimerRunWriters : Prop :=
  ∀ (i : Instr) (s t : State), exec i s = .next t →
    ((∀ nnn, i ≠ .ldI nnn) → (∀ x, i ≠ .addI x) → (∀ x, i ≠ .ldFont x) → Piece.i.same s t) ∧
    ((∀ x, i ≠ .ldDTVx x) → Piece.dt.same s t) ∧ ((∀ x, i ≠ .ldSTVx x) → Piece.st.same s t) ∧
    ((∀ x, i ≠ .ldKey x) → Piece.run.same s t) ∧ Piece.inputs.same s t

/-- A general register changes only under an instruction that R22 lists as writing it; so VF keeps its
value under every instruction that neither writes the flag nor names VF (R22, R24). -/
def Obligations.RegisterWriters : Prop :=
  ∀ (i : Instr) (s t : State) (j : Nibble), exec i s = .next t → mayWriteV j i = false →
    t.getV j = s.getV j

/-- How pc advances, instruction by instruction (R26): by 2, by 2 or 4, or not at all for a Fx0A that
issues; the transfers' targets are stated with them. -/
def Obligations.PcAdvance : Prop :=
  ∀ (i : Instr) (s t : State), exec i s = .next t →
    (pcRule i = .byTwo → t.pc = s.pc + 2) ∧
    (pcRule i = .skip → t.pc = s.pc + 2 ∨ t.pc = s.pc + 4) ∧
    (pcRule i = .stay → t.pc = s.pc)

/-! ## The invariant -/

/-- The invariant of R45 holds right after reset (the canonical memory list is the model's, log 20). -/
def Obligations.ResetMeetsInvariant : Prop := State.reset.Inv

/-- Every completed step keeps the invariant of R45, whatever the inputs: the memory list stays canonical
(log 20), the area below 0x200 keeps its reset contents (D7, log 12), and a waiting core stands on the
Fx0A that waits (D10, log 16). -/
def Obligations.StepKeepsInvariant : Prop :=
  ∀ (s t : State), s.Inv → step s = .next t → t.Inv

/-- Every state the machine can be in meets the invariant of R45: by steps and ticks in any order, resets,
and loads directly after a reset (R257; what the driver never does is D23, log 17, reset and load are D13,
log 18). The invariant's clauses rest on the model's memory list (log 20), the reserved area no store
reaches (D7, log 12) and the protocol of Fx0A (D10, log 16). -/
def Obligations.ReachableStatesMeetInvariant : Prop :=
  ∀ s : State, Reachable s → s.Inv
end

