-- ==== Sys2Proof/Laws/Decode.lean ====
section
/-! SUPPORT. The fields of a packed word are the fields it was packed from. -/

namespace Sys2Proof

theorem Word.op_toNat (w : Word) : (Word.op w).toNat = w.toNat / 4096 := by
  have := w.isLt
  simp only [Word.op, BitVec.extractLsb'_toNat, Nat.shiftRight_eq_div_pow]
  omega

theorem Word.x_toNat (w : Word) : (Word.x w).toNat = w.toNat / 256 % 16 := by
  simp [Word.x, BitVec.extractLsb'_toNat, Nat.shiftRight_eq_div_pow]

theorem Word.y_toNat (w : Word) : (Word.y w).toNat = w.toNat / 16 % 16 := by
  simp [Word.y, BitVec.extractLsb'_toNat, Nat.shiftRight_eq_div_pow]

theorem Word.n_toNat (w : Word) : (Word.n w).toNat = w.toNat % 16 := by
  simp [Word.n, BitVec.extractLsb'_toNat]

theorem Word.kk_toNat (w : Word) : (Word.kk w).toNat = w.toNat % 256 := by
  simp [Word.kk, BitVec.extractLsb'_toNat]

theorem Word.nnn_toNat (w : Word) : (Word.nnn w).toNat = w.toNat % 4096 := by
  simp [Word.nnn, BitVec.extractLsb'_toNat]

theorem packN_toNat (op : Nibble) (nnn : Addr) :
    (packN op nnn).toNat = op.toNat * 4096 + nnn.toNat := by
  have := nnn.isLt
  simp only [packN, BitVec.toNat_append, Nat.shiftLeft_eq]
  rw [← Nat.shiftLeft_eq, ← Nat.shiftLeft_add_eq_or_of_lt this, Nat.shiftLeft_eq]

theorem append_nibbles_toNat (a b : Nibble) :
    (a ++ b : Byte).toNat = a.toNat * 16 + b.toNat := by
  have := b.isLt
  simp only [BitVec.toNat_append]
  rw [← Nat.shiftLeft_add_eq_or_of_lt this, Nat.shiftLeft_eq]

theorem append_bytes_toNat (a b : Byte) : (a ++ b : Word).toNat = a.toNat * 256 + b.toNat := by
  have := b.isLt
  simp only [BitVec.toNat_append]
  rw [← Nat.shiftLeft_add_eq_or_of_lt this, Nat.shiftLeft_eq]

theorem packK_toNat (op x : Nibble) (kk : Byte) :
    (packK op x kk).toNat = op.toNat * 4096 + x.toNat * 256 + kk.toNat := by
  refine (append_bytes_toNat (op ++ x) kk).trans ?_
  rw [append_nibbles_toNat]
  omega

theorem packY_toNat (op x y n : Nibble) :
    (packY op x y n).toNat = op.toNat * 4096 + x.toNat * 256 + y.toNat * 16 + n.toNat := by
  refine (append_bytes_toNat (op ++ x) (y ++ n)).trans ?_
  rw [append_nibbles_toNat, append_nibbles_toNat]
  omega

/-- The big-endian word of two bytes (R62). -/
theorem wordOfBytes_toNat (hi lo : Byte) :
    (wordOfBytes hi lo).toNat = hi.toNat * 256 + lo.toNat := append_bytes_toNat hi lo

/-! Bit i of the three packed formats (R91). -/

theorem packN_bit (op : Nibble) (nnn : Addr) (i : Nat) :
    (packN op nnn).getLsbD i = if i < 12 then nnn.getLsbD i else op.getLsbD (i - 12) :=
  BitVec.getLsbD_append

theorem append_nibbles_bit (a b : Nibble) (i : Nat) :
    (a ++ b : Byte).getLsbD i = if i < 4 then b.getLsbD i else a.getLsbD (i - 4) :=
  BitVec.getLsbD_append

theorem packK_bit (op x : Nibble) (kk : Byte) (i : Nat) :
    (packK op x kk).getLsbD i =
      if i < 8 then kk.getLsbD i
      else if i - 8 < 4 then x.getLsbD (i - 8) else op.getLsbD (i - 8 - 4) :=
  BitVec.getLsbD_append.trans (if_congr Iff.rfl rfl (append_nibbles_bit op x (i - 8)))

theorem packY_bit (op x y n : Nibble) (i : Nat) :
    (packY op x y n).getLsbD i =
      if i < 8 then (if i < 4 then n.getLsbD i else y.getLsbD (i - 4))
      else if i - 8 < 4 then x.getLsbD (i - 8) else op.getLsbD (i - 8 - 4) :=
  BitVec.getLsbD_append.trans
    (if_congr Iff.rfl (append_nibbles_bit y n i) (append_nibbles_bit op x (i - 8)))

/-! Fields of the three packed formats. -/

@[simp] theorem op_packN (op : Nibble) (nnn : Addr) : Word.op (packN op nnn) = op := by
  have := op.isLt; have := nnn.isLt
  apply BitVec.eq_of_toNat_eq; rw [Word.op_toNat, packN_toNat]; omega

@[simp] theorem nnn_packN (op : Nibble) (nnn : Addr) : Word.nnn (packN op nnn) = nnn := by
  have := nnn.isLt
  apply BitVec.eq_of_toNat_eq; rw [Word.nnn_toNat, packN_toNat]; omega

@[simp] theorem op_packK (op x : Nibble) (kk : Byte) : Word.op (packK op x kk) = op := by
  have := op.isLt; have := x.isLt; have := kk.isLt
  apply BitVec.eq_of_toNat_eq; rw [Word.op_toNat, packK_toNat]; omega

@[simp] theorem x_packK (op x : Nibble) (kk : Byte) : Word.x (packK op x kk) = x := by
  have := x.isLt; have := kk.isLt
  apply BitVec.eq_of_toNat_eq; rw [Word.x_toNat, packK_toNat]; omega

@[simp] theorem kk_packK (op x : Nibble) (kk : Byte) : Word.kk (packK op x kk) = kk := by
  have := kk.isLt
  apply BitVec.eq_of_toNat_eq; rw [Word.kk_toNat, packK_toNat]; omega

@[simp] theorem op_packY (op x y n : Nibble) : Word.op (packY op x y n) = op := by
  have := op.isLt; have := x.isLt; have := y.isLt; have := n.isLt
  apply BitVec.eq_of_toNat_eq; rw [Word.op_toNat, packY_toNat]; omega

@[simp] theorem x_packY (op x y n : Nibble) : Word.x (packY op x y n) = x := by
  have := x.isLt; have := y.isLt; have := n.isLt
  apply BitVec.eq_of_toNat_eq; rw [Word.x_toNat, packY_toNat]; omega

@[simp] theorem y_packY (op x y n : Nibble) : Word.y (packY op x y n) = y := by
  have := y.isLt; have := n.isLt
  apply BitVec.eq_of_toNat_eq; rw [Word.y_toNat, packY_toNat]; omega

@[simp] theorem n_packY (op x y n : Nibble) : Word.n (packY op x y n) = n := by
  have := n.isLt
  apply BitVec.eq_of_toNat_eq; rw [Word.n_toNat, packY_toNat]; omega

/-! A word is packed from its own fields. -/

theorem packN_fields (w : Word) (op : Nibble) (h : (Word.op w).toNat = op.toNat) :
    packN op (Word.nnn w) = w := by
  apply BitVec.eq_of_toNat_eq
  rw [packN_toNat, ← h, Word.op_toNat, Word.nnn_toNat]
  omega

theorem packK_fields (w : Word) (op : Nibble) (kk : Byte) (h : (Word.op w).toNat = op.toNat)
    (hk : (Word.kk w).toNat = kk.toNat) : packK op (Word.x w) kk = w := by
  apply BitVec.eq_of_toNat_eq
  rw [packK_toNat, ← h, ← hk, Word.op_toNat, Word.x_toNat, Word.kk_toNat]
  omega

theorem packY_fields (w : Word) (op n : Nibble) (h : (Word.op w).toNat = op.toNat)
    (hn : (Word.n w).toNat = n.toNat) : packY op (Word.x w) (Word.y w) n = w := by
  apply BitVec.eq_of_toNat_eq
  rw [packY_toNat, ← h, ← hn, Word.op_toNat, Word.x_toNat, Word.y_toNat, Word.n_toNat]
  omega

/-- The two bytes of a word give the word back (R62). -/
@[simp] theorem wordOfBytes_bytesOfWord (w : Word) :
    wordOfBytes (w.extractLsb' 8 8) (w.extractLsb' 0 8) = w := by
  have := w.isLt
  apply BitVec.eq_of_toNat_eq
  rw [wordOfBytes_toNat]
  simp only [BitVec.extractLsb'_toNat, Nat.shiftRight_eq_div_pow]
  omega

/-- Decoding the bytes of a word is decoding the word (R90). -/
theorem decodeBytes_bytesOfWord (w : Word) (rest : List Byte) :
    decodeBytes (bytesOfWord w ++ rest) =
      match decode w with
      | .ok i => .ok (i, rest)
      | .error e => .error e := by
  cases h : decode w <;> simp [bytesOfWord, decodeBytes, h]

end Sys2Proof
end

