-- ==== Sys2Proof/Laws/Memory.lean ====
section
/-! SUPPORT. The laws of the memory list: reading after writing, and that every operation keeps the
canonical form. -/

namespace Sys2Proof.Machine

theorem Memory.read_insert (m : List Host.Cell) (a c : Nat) (v : Byte) :
    Memory.read (Memory.insert m a v) c = if c = a then v else Memory.read m c := by
  induction m with
  | nil => simp [Memory.insert, Memory.read]
  | cons e m ih =>
    obtain ⟨b, w⟩ := e
    simp only [Memory.insert]
    split_ifs with h1 h2 h3 h3 h3 <;> simp_all [Memory.read]

theorem Memory.read_erase (m : List Host.Cell) (a c : Nat) :
    Memory.read (Memory.erase m a) c = if c = a then Config.resetByte a else Memory.read m c := by
  induction m with
  | nil => by_cases h : c = a <;> simp [Memory.erase, Memory.read, h]
  | cons e m ih =>
    obtain ⟨b, w⟩ := e
    simp only [Memory.erase]
    split_ifs with h1 h2 h2 <;> simp_all [Memory.read]

/-- A read after a write: the byte written at its address, every other byte as before. -/
theorem Memory.read_write (m : List Host.Cell) (a c : Nat) (v : Byte) :
    Memory.read (Memory.write m a v) c = if c = a then v else Memory.read m c := by
  unfold Memory.write
  split_ifs with h1 h2 h2 <;> simp_all [Memory.read_insert, Memory.read_erase]

/-- A read after a block write: byte k of the block at address a + k, every other byte as before. -/
theorem Memory.read_writeBytes (bs : List Byte) (m : List Host.Cell) (a c : Nat) :
    Memory.read (Memory.writeBytes m a bs) c =
      if a ≤ c ∧ c < a + bs.length then bs.getD (c - a) 0 else Memory.read m c := by
  induction bs generalizing m a with
  | nil =>
    have : ¬(a ≤ c ∧ c < a) := by omega
    simp [Memory.writeBytes, this]
  | cons b bs ih =>
    rw [Memory.writeBytes, ih, Memory.read_write]
    rcases Nat.lt_trichotomy c a with h | h | h
    · have h1 : ¬(a + 1 ≤ c ∧ c < a + 1 + bs.length) := by omega
      have h2 : ¬(a ≤ c ∧ c < a + (b :: bs).length) := by omega
      simp only [h1, h2, if_false]
      rw [if_neg (by omega)]
    · subst h
      simp
    · obtain ⟨d, rfl⟩ : ∃ d, c = a + 1 + d := ⟨c - (a + 1), by omega⟩
      have e : a + 1 + d - a = d + 1 := by omega
      by_cases hd : d < bs.length
      · rw [if_pos (by omega), if_pos (by simp; omega), e]
        simp
      · rw [if_neg (by omega), if_neg (by omega), if_neg (by simp; omega)]

@[simp] theorem Memory.readBytes_length (m : List Host.Cell) (a n : Nat) :
    (Memory.readBytes m a n).length = n := by
  simp [Memory.readBytes]

theorem Memory.readBytes_getElem (m : List Host.Cell) (a n k : Nat)
    (h : k < (Memory.readBytes m a n).length) :
    (Memory.readBytes m a n)[k] = Memory.read m (a + k) := by
  simp [Memory.readBytes]

/-! ## The canonical form -/

theorem Memory.all_insert (p : Host.Cell → Bool) (m : List Host.Cell) (a : Nat) (v : Byte)
    (h : m.all p = true) (hp : p (a, v) = true) : (Memory.insert m a v).all p = true := by
  induction m with
  | nil => simp [Memory.insert, hp]
  | cons e m ih =>
    obtain ⟨b, w⟩ := e
    simp only [List.all_cons, Bool.and_eq_true] at h
    simp only [Memory.insert]
    split_ifs <;> simp only [List.all_cons, Bool.and_eq_true] <;> simp_all

theorem Memory.all_erase (p : Host.Cell → Bool) (m : List Host.Cell) (a : Nat)
    (h : m.all p = true) : (Memory.erase m a).all p = true := by
  induction m with
  | nil => rfl
  | cons e m ih =>
    obtain ⟨b, w⟩ := e
    simp only [List.all_cons, Bool.and_eq_true] at h
    simp only [Memory.erase]
    split_ifs <;> simp_all

theorem Memory.all_mono (p q : Host.Cell → Bool) (m : List Host.Cell)
    (hpq : ∀ c, p c = true → q c = true) (h : m.all p = true) : m.all q = true := by
  rw [List.all_eq_true] at h ⊢
  exact fun c hc => hpq c (h c hc)

theorem Memory.wf_cons {a : Nat} {v : Byte} {m : List Host.Cell} :
    Memory.wf ((a, v) :: m) = true ↔
      a < Config.memSize ∧ v ≠ Config.resetByte a ∧ m.all (fun c => decide (a < c.1)) = true ∧
        Memory.wf m = true := by
  simp [Memory.wf, and_assoc]

theorem Memory.wf_insert {m : List Host.Cell} {a : Nat} {v : Byte} (hm : Memory.wf m = true)
    (ha : a < Config.memSize) (hv : v ≠ Config.resetByte a) :
    Memory.wf (Memory.insert m a v) = true := by
  induction m with
  | nil => simp [Memory.insert, Memory.wf, ha, hv]
  | cons e m ih =>
    obtain ⟨b, w⟩ := e
    obtain ⟨h1, h2, h3, h4⟩ := Memory.wf_cons.mp hm
    simp only [Memory.insert]
    split_ifs with c1 c2
    · refine Memory.wf_cons.mpr ⟨ha, hv, ?_, hm⟩
      simp only [List.all_cons, Bool.and_eq_true, decide_eq_true_eq]
      refine ⟨c1, Memory.all_mono _ _ m (fun c hc => ?_) h3⟩
      simp only [decide_eq_true_eq] at hc ⊢
      omega
    · subst c2
      exact Memory.wf_cons.mpr ⟨ha, hv, h3, h4⟩
    · refine Memory.wf_cons.mpr ⟨h1, h2, Memory.all_insert _ m a v h3 ?_, ih h4⟩
      simp only [decide_eq_true_eq]
      omega

theorem Memory.wf_erase {m : List Host.Cell} {a : Nat} (hm : Memory.wf m = true) :
    Memory.wf (Memory.erase m a) = true := by
  induction m with
  | nil => rfl
  | cons e m ih =>
    obtain ⟨b, w⟩ := e
    obtain ⟨h1, h2, h3, h4⟩ := Memory.wf_cons.mp hm
    simp only [Memory.erase]
    split_ifs
    · exact ih h4
    · exact Memory.wf_cons.mpr ⟨h1, h2, Memory.all_erase _ m a h3, ih h4⟩

/-- A write below 0x1000 keeps the canonical form. -/
theorem Memory.wf_write {m : List Host.Cell} {a : Nat} {v : Byte} (hm : Memory.wf m = true)
    (ha : a < Config.memSize) : Memory.wf (Memory.write m a v) = true := by
  unfold Memory.write
  split_ifs with h
  · exact Memory.wf_erase hm
  · exact Memory.wf_insert hm ha h

/-- A block write that stays below 0x1000 keeps the canonical form. -/
theorem Memory.wf_writeBytes (bs : List Byte) {m : List Host.Cell} {a : Nat}
    (hm : Memory.wf m = true) (ha : a + bs.length ≤ Config.memSize) :
    Memory.wf (Memory.writeBytes m a bs) = true := by
  induction bs generalizing m a with
  | nil => exact hm
  | cons b bs ih =>
    simp only [List.length_cons] at ha
    exact ih (Memory.wf_write hm (by omega)) (by omega)

/-- Reset's memory list has the canonical form. -/
theorem Memory.wf_reset : Memory.wf State.reset.mem = true := rfl

end Sys2Proof.Machine
end

