-- ==== Sys2Proof/Laws/State.lean ====
section
/-! SUPPORT. What each update of State leaves in each field: one lemma per update and field, true by rfl,
and what reading a register after an update gives. -/

namespace Sys2Proof.Machine

variable (s : State)

/-! `State.setV` -/
@[simp] theorem State.setV_v (x : Nibble) (b : Byte) : (s.setV x b).v = s.v.set x.toNat b := rfl
@[simp] theorem State.setV_i (x : Nibble) (b : Byte) : (s.setV x b).i = s.i := rfl
@[simp] theorem State.setV_pc (x : Nibble) (b : Byte) : (s.setV x b).pc = s.pc := rfl
@[simp] theorem State.setV_stack (x : Nibble) (b : Byte) : (s.setV x b).stack = s.stack := rfl
@[simp] theorem State.setV_depth (x : Nibble) (b : Byte) : (s.setV x b).depth = s.depth := rfl
@[simp] theorem State.setV_dt (x : Nibble) (b : Byte) : (s.setV x b).dt = s.dt := rfl
@[simp] theorem State.setV_st (x : Nibble) (b : Byte) : (s.setV x b).st = s.st := rfl
@[simp] theorem State.setV_run (x : Nibble) (b : Byte) : (s.setV x b).run = s.run := rfl
@[simp] theorem State.setV_mem (x : Nibble) (b : Byte) : (s.setV x b).mem = s.mem := rfl
@[simp] theorem State.setV_fb (x : Nibble) (b : Byte) : (s.setV x b).fb = s.fb := rfl
@[simp] theorem State.setV_inputs (x : Nibble) (b : Byte) : (s.setV x b).inputs = s.inputs := rfl
@[simp] theorem State.setV_inputCount (x : Nibble) (b : Byte) : (s.setV x b).inputCount = s.inputCount := rfl

/-! `State.setRegs` -/
@[simp] theorem State.setRegs_v (v : Vector Byte 16) : (s.setRegs v).v = v := rfl
@[simp] theorem State.setRegs_i (v : Vector Byte 16) : (s.setRegs v).i = s.i := rfl
@[simp] theorem State.setRegs_pc (v : Vector Byte 16) : (s.setRegs v).pc = s.pc := rfl
@[simp] theorem State.setRegs_stack (v : Vector Byte 16) : (s.setRegs v).stack = s.stack := rfl
@[simp] theorem State.setRegs_depth (v : Vector Byte 16) : (s.setRegs v).depth = s.depth := rfl
@[simp] theorem State.setRegs_dt (v : Vector Byte 16) : (s.setRegs v).dt = s.dt := rfl
@[simp] theorem State.setRegs_st (v : Vector Byte 16) : (s.setRegs v).st = s.st := rfl
@[simp] theorem State.setRegs_run (v : Vector Byte 16) : (s.setRegs v).run = s.run := rfl
@[simp] theorem State.setRegs_mem (v : Vector Byte 16) : (s.setRegs v).mem = s.mem := rfl
@[simp] theorem State.setRegs_fb (v : Vector Byte 16) : (s.setRegs v).fb = s.fb := rfl
@[simp] theorem State.setRegs_inputs (v : Vector Byte 16) : (s.setRegs v).inputs = s.inputs := rfl
@[simp] theorem State.setRegs_inputCount (v : Vector Byte 16) : (s.setRegs v).inputCount = s.inputCount := rfl

/-! `State.setI` -/
@[simp] theorem State.setI_v (w : Addr) : (s.setI w).v = s.v := rfl
@[simp] theorem State.setI_i (w : Addr) : (s.setI w).i = w := rfl
@[simp] theorem State.setI_pc (w : Addr) : (s.setI w).pc = s.pc := rfl
@[simp] theorem State.setI_stack (w : Addr) : (s.setI w).stack = s.stack := rfl
@[simp] theorem State.setI_depth (w : Addr) : (s.setI w).depth = s.depth := rfl
@[simp] theorem State.setI_dt (w : Addr) : (s.setI w).dt = s.dt := rfl
@[simp] theorem State.setI_st (w : Addr) : (s.setI w).st = s.st := rfl
@[simp] theorem State.setI_run (w : Addr) : (s.setI w).run = s.run := rfl
@[simp] theorem State.setI_mem (w : Addr) : (s.setI w).mem = s.mem := rfl
@[simp] theorem State.setI_fb (w : Addr) : (s.setI w).fb = s.fb := rfl
@[simp] theorem State.setI_inputs (w : Addr) : (s.setI w).inputs = s.inputs := rfl
@[simp] theorem State.setI_inputCount (w : Addr) : (s.setI w).inputCount = s.inputCount := rfl

/-! `State.setPc` -/
@[simp] theorem State.setPc_v (p : Word) : (s.setPc p).v = s.v := rfl
@[simp] theorem State.setPc_i (p : Word) : (s.setPc p).i = s.i := rfl
@[simp] theorem State.setPc_pc (p : Word) : (s.setPc p).pc = p := rfl
@[simp] theorem State.setPc_stack (p : Word) : (s.setPc p).stack = s.stack := rfl
@[simp] theorem State.setPc_depth (p : Word) : (s.setPc p).depth = s.depth := rfl
@[simp] theorem State.setPc_dt (p : Word) : (s.setPc p).dt = s.dt := rfl
@[simp] theorem State.setPc_st (p : Word) : (s.setPc p).st = s.st := rfl
@[simp] theorem State.setPc_run (p : Word) : (s.setPc p).run = s.run := rfl
@[simp] theorem State.setPc_mem (p : Word) : (s.setPc p).mem = s.mem := rfl
@[simp] theorem State.setPc_fb (p : Word) : (s.setPc p).fb = s.fb := rfl
@[simp] theorem State.setPc_inputs (p : Word) : (s.setPc p).inputs = s.inputs := rfl
@[simp] theorem State.setPc_inputCount (p : Word) : (s.setPc p).inputCount = s.inputCount := rfl

/-! `State.setStack` -/
@[simp] theorem State.setStack_v (k : Vector Word 16) (d : Fin 17) : (s.setStack k d).v = s.v := rfl
@[simp] theorem State.setStack_i (k : Vector Word 16) (d : Fin 17) : (s.setStack k d).i = s.i := rfl
@[simp] theorem State.setStack_pc (k : Vector Word 16) (d : Fin 17) : (s.setStack k d).pc = s.pc := rfl
@[simp] theorem State.setStack_stack (k : Vector Word 16) (d : Fin 17) : (s.setStack k d).stack = k := rfl
@[simp] theorem State.setStack_depth (k : Vector Word 16) (d : Fin 17) : (s.setStack k d).depth = d := rfl
@[simp] theorem State.setStack_dt (k : Vector Word 16) (d : Fin 17) : (s.setStack k d).dt = s.dt := rfl
@[simp] theorem State.setStack_st (k : Vector Word 16) (d : Fin 17) : (s.setStack k d).st = s.st := rfl
@[simp] theorem State.setStack_run (k : Vector Word 16) (d : Fin 17) : (s.setStack k d).run = s.run := rfl
@[simp] theorem State.setStack_mem (k : Vector Word 16) (d : Fin 17) : (s.setStack k d).mem = s.mem := rfl
@[simp] theorem State.setStack_fb (k : Vector Word 16) (d : Fin 17) : (s.setStack k d).fb = s.fb := rfl
@[simp] theorem State.setStack_inputs (k : Vector Word 16) (d : Fin 17) : (s.setStack k d).inputs = s.inputs := rfl
@[simp] theorem State.setStack_inputCount (k : Vector Word 16) (d : Fin 17) : (s.setStack k d).inputCount = s.inputCount := rfl

/-! `State.setDT` -/
@[simp] theorem State.setDT_v (b : Byte) : (s.setDT b).v = s.v := rfl
@[simp] theorem State.setDT_i (b : Byte) : (s.setDT b).i = s.i := rfl
@[simp] theorem State.setDT_pc (b : Byte) : (s.setDT b).pc = s.pc := rfl
@[simp] theorem State.setDT_stack (b : Byte) : (s.setDT b).stack = s.stack := rfl
@[simp] theorem State.setDT_depth (b : Byte) : (s.setDT b).depth = s.depth := rfl
@[simp] theorem State.setDT_dt (b : Byte) : (s.setDT b).dt = b := rfl
@[simp] theorem State.setDT_st (b : Byte) : (s.setDT b).st = s.st := rfl
@[simp] theorem State.setDT_run (b : Byte) : (s.setDT b).run = s.run := rfl
@[simp] theorem State.setDT_mem (b : Byte) : (s.setDT b).mem = s.mem := rfl
@[simp] theorem State.setDT_fb (b : Byte) : (s.setDT b).fb = s.fb := rfl
@[simp] theorem State.setDT_inputs (b : Byte) : (s.setDT b).inputs = s.inputs := rfl
@[simp] theorem State.setDT_inputCount (b : Byte) : (s.setDT b).inputCount = s.inputCount := rfl

/-! `State.setST` -/
@[simp] theorem State.setST_v (b : Byte) : (s.setST b).v = s.v := rfl
@[simp] theorem State.setST_i (b : Byte) : (s.setST b).i = s.i := rfl
@[simp] theorem State.setST_pc (b : Byte) : (s.setST b).pc = s.pc := rfl
@[simp] theorem State.setST_stack (b : Byte) : (s.setST b).stack = s.stack := rfl
@[simp] theorem State.setST_depth (b : Byte) : (s.setST b).depth = s.depth := rfl
@[simp] theorem State.setST_dt (b : Byte) : (s.setST b).dt = s.dt := rfl
@[simp] theorem State.setST_st (b : Byte) : (s.setST b).st = b := rfl
@[simp] theorem State.setST_run (b : Byte) : (s.setST b).run = s.run := rfl
@[simp] theorem State.setST_mem (b : Byte) : (s.setST b).mem = s.mem := rfl
@[simp] theorem State.setST_fb (b : Byte) : (s.setST b).fb = s.fb := rfl
@[simp] theorem State.setST_inputs (b : Byte) : (s.setST b).inputs = s.inputs := rfl
@[simp] theorem State.setST_inputCount (b : Byte) : (s.setST b).inputCount = s.inputCount := rfl

/-! `State.setRun` -/
@[simp] theorem State.setRun_v (r : RunState) : (s.setRun r).v = s.v := rfl
@[simp] theorem State.setRun_i (r : RunState) : (s.setRun r).i = s.i := rfl
@[simp] theorem State.setRun_pc (r : RunState) : (s.setRun r).pc = s.pc := rfl
@[simp] theorem State.setRun_stack (r : RunState) : (s.setRun r).stack = s.stack := rfl
@[simp] theorem State.setRun_depth (r : RunState) : (s.setRun r).depth = s.depth := rfl
@[simp] theorem State.setRun_dt (r : RunState) : (s.setRun r).dt = s.dt := rfl
@[simp] theorem State.setRun_st (r : RunState) : (s.setRun r).st = s.st := rfl
@[simp] theorem State.setRun_run (r : RunState) : (s.setRun r).run = r := rfl
@[simp] theorem State.setRun_mem (r : RunState) : (s.setRun r).mem = s.mem := rfl
@[simp] theorem State.setRun_fb (r : RunState) : (s.setRun r).fb = s.fb := rfl
@[simp] theorem State.setRun_inputs (r : RunState) : (s.setRun r).inputs = s.inputs := rfl
@[simp] theorem State.setRun_inputCount (r : RunState) : (s.setRun r).inputCount = s.inputCount := rfl

/-! `State.setMem` -/
@[simp] theorem State.setMem_v (m : List Host.Cell) : (s.setMem m).v = s.v := rfl
@[simp] theorem State.setMem_i (m : List Host.Cell) : (s.setMem m).i = s.i := rfl
@[simp] theorem State.setMem_pc (m : List Host.Cell) : (s.setMem m).pc = s.pc := rfl
@[simp] theorem State.setMem_stack (m : List Host.Cell) : (s.setMem m).stack = s.stack := rfl
@[simp] theorem State.setMem_depth (m : List Host.Cell) : (s.setMem m).depth = s.depth := rfl
@[simp] theorem State.setMem_dt (m : List Host.Cell) : (s.setMem m).dt = s.dt := rfl
@[simp] theorem State.setMem_st (m : List Host.Cell) : (s.setMem m).st = s.st := rfl
@[simp] theorem State.setMem_run (m : List Host.Cell) : (s.setMem m).run = s.run := rfl
@[simp] theorem State.setMem_mem (m : List Host.Cell) : (s.setMem m).mem = m := rfl
@[simp] theorem State.setMem_fb (m : List Host.Cell) : (s.setMem m).fb = s.fb := rfl
@[simp] theorem State.setMem_inputs (m : List Host.Cell) : (s.setMem m).inputs = s.inputs := rfl
@[simp] theorem State.setMem_inputCount (m : List Host.Cell) : (s.setMem m).inputCount = s.inputCount := rfl

/-! `State.setFB` -/
@[simp] theorem State.setFB_v (f : Framebuffer) : (s.setFB f).v = s.v := rfl
@[simp] theorem State.setFB_i (f : Framebuffer) : (s.setFB f).i = s.i := rfl
@[simp] theorem State.setFB_pc (f : Framebuffer) : (s.setFB f).pc = s.pc := rfl
@[simp] theorem State.setFB_stack (f : Framebuffer) : (s.setFB f).stack = s.stack := rfl
@[simp] theorem State.setFB_depth (f : Framebuffer) : (s.setFB f).depth = s.depth := rfl
@[simp] theorem State.setFB_dt (f : Framebuffer) : (s.setFB f).dt = s.dt := rfl
@[simp] theorem State.setFB_st (f : Framebuffer) : (s.setFB f).st = s.st := rfl
@[simp] theorem State.setFB_run (f : Framebuffer) : (s.setFB f).run = s.run := rfl
@[simp] theorem State.setFB_mem (f : Framebuffer) : (s.setFB f).mem = s.mem := rfl
@[simp] theorem State.setFB_fb (f : Framebuffer) : (s.setFB f).fb = f := rfl
@[simp] theorem State.setFB_inputs (f : Framebuffer) : (s.setFB f).inputs = s.inputs := rfl
@[simp] theorem State.setFB_inputCount (f : Framebuffer) : (s.setFB f).inputCount = s.inputCount := rfl

/-! `State.setInputs` -/
@[simp] theorem State.setInputs_v (q : List Input) (n : Nat) : (s.setInputs q n).v = s.v := rfl
@[simp] theorem State.setInputs_i (q : List Input) (n : Nat) : (s.setInputs q n).i = s.i := rfl
@[simp] theorem State.setInputs_pc (q : List Input) (n : Nat) : (s.setInputs q n).pc = s.pc := rfl
@[simp] theorem State.setInputs_stack (q : List Input) (n : Nat) : (s.setInputs q n).stack = s.stack := rfl
@[simp] theorem State.setInputs_depth (q : List Input) (n : Nat) : (s.setInputs q n).depth = s.depth := rfl
@[simp] theorem State.setInputs_dt (q : List Input) (n : Nat) : (s.setInputs q n).dt = s.dt := rfl
@[simp] theorem State.setInputs_st (q : List Input) (n : Nat) : (s.setInputs q n).st = s.st := rfl
@[simp] theorem State.setInputs_run (q : List Input) (n : Nat) : (s.setInputs q n).run = s.run := rfl
@[simp] theorem State.setInputs_mem (q : List Input) (n : Nat) : (s.setInputs q n).mem = s.mem := rfl
@[simp] theorem State.setInputs_fb (q : List Input) (n : Nat) : (s.setInputs q n).fb = s.fb := rfl
@[simp] theorem State.setInputs_inputs (q : List Input) (n : Nat) : (s.setInputs q n).inputs = q := rfl
@[simp] theorem State.setInputs_inputCount (q : List Input) (n : Nat) : (s.setInputs q n).inputCount = n := rfl

/-! `State.advance` -/
@[simp] theorem State.advance_v : (s.advance).v = s.v := rfl
@[simp] theorem State.advance_i : (s.advance).i = s.i := rfl
@[simp] theorem State.advance_pc : (s.advance).pc = s.pc + 2 := rfl
@[simp] theorem State.advance_stack : (s.advance).stack = s.stack := rfl
@[simp] theorem State.advance_depth : (s.advance).depth = s.depth := rfl
@[simp] theorem State.advance_dt : (s.advance).dt = s.dt := rfl
@[simp] theorem State.advance_st : (s.advance).st = s.st := rfl
@[simp] theorem State.advance_run : (s.advance).run = s.run := rfl
@[simp] theorem State.advance_mem : (s.advance).mem = s.mem := rfl
@[simp] theorem State.advance_fb : (s.advance).fb = s.fb := rfl
@[simp] theorem State.advance_inputs : (s.advance).inputs = s.inputs := rfl
@[simp] theorem State.advance_inputCount : (s.advance).inputCount = s.inputCount := rfl

/-! `State.skipIf` -/
@[simp] theorem State.skipIf_v (c : Bool) : (s.skipIf c).v = s.v := rfl
@[simp] theorem State.skipIf_i (c : Bool) : (s.skipIf c).i = s.i := rfl
@[simp] theorem State.skipIf_pc (c : Bool) : (s.skipIf c).pc = s.pc + if c then 4 else 2 := rfl
@[simp] theorem State.skipIf_stack (c : Bool) : (s.skipIf c).stack = s.stack := rfl
@[simp] theorem State.skipIf_depth (c : Bool) : (s.skipIf c).depth = s.depth := rfl
@[simp] theorem State.skipIf_dt (c : Bool) : (s.skipIf c).dt = s.dt := rfl
@[simp] theorem State.skipIf_st (c : Bool) : (s.skipIf c).st = s.st := rfl
@[simp] theorem State.skipIf_run (c : Bool) : (s.skipIf c).run = s.run := rfl
@[simp] theorem State.skipIf_mem (c : Bool) : (s.skipIf c).mem = s.mem := rfl
@[simp] theorem State.skipIf_fb (c : Bool) : (s.skipIf c).fb = s.fb := rfl
@[simp] theorem State.skipIf_inputs (c : Bool) : (s.skipIf c).inputs = s.inputs := rfl
@[simp] theorem State.skipIf_inputCount (c : Bool) : (s.skipIf c).inputCount = s.inputCount := rfl

/-! `State.tick` -/
@[simp] theorem State.tick_v : (s.tick).v = s.v := rfl
@[simp] theorem State.tick_i : (s.tick).i = s.i := rfl
@[simp] theorem State.tick_pc : (s.tick).pc = s.pc := rfl
@[simp] theorem State.tick_stack : (s.tick).stack = s.stack := rfl
@[simp] theorem State.tick_depth : (s.tick).depth = s.depth := rfl
@[simp] theorem State.tick_dt : (s.tick).dt = tickCounter s.dt := rfl
@[simp] theorem State.tick_st : (s.tick).st = tickCounter s.st := rfl
@[simp] theorem State.tick_run : (s.tick).run = s.run := rfl
@[simp] theorem State.tick_mem : (s.tick).mem = s.mem := rfl
@[simp] theorem State.tick_fb : (s.tick).fb = s.fb := rfl
@[simp] theorem State.tick_inputs : (s.tick).inputs = s.inputs := rfl
@[simp] theorem State.tick_inputCount : (s.tick).inputCount = s.inputCount := rfl

/-! `State.between` -/
@[simp] theorem State.between_v : (s.between).v = s.v := rfl
@[simp] theorem State.between_i : (s.between).i = s.i := rfl
@[simp] theorem State.between_pc : (s.between).pc = s.pc := rfl
@[simp] theorem State.between_stack : (s.between).stack = s.stack := rfl
@[simp] theorem State.between_depth : (s.between).depth = s.depth := rfl
@[simp] theorem State.between_dt : (s.between).dt = elapse s.input.ticks s.dt := rfl
@[simp] theorem State.between_st : (s.between).st = elapse s.input.ticks s.st := rfl
@[simp] theorem State.between_run : (s.between).run = s.run := rfl
@[simp] theorem State.between_mem : (s.between).mem = s.mem := rfl
@[simp] theorem State.between_fb : (s.between).fb = s.fb := rfl
@[simp] theorem State.between_inputs : (s.between).inputs = s.inputs.tail := rfl
@[simp] theorem State.between_inputCount : (s.between).inputCount = s.inputCount + 1 := rfl

/-! `State.storeAtI` -/
@[simp] theorem State.storeAtI_v (bs : List Byte) : (s.storeAtI bs).v = s.v := rfl
@[simp] theorem State.storeAtI_i (bs : List Byte) : (s.storeAtI bs).i = s.i := rfl
@[simp] theorem State.storeAtI_pc (bs : List Byte) : (s.storeAtI bs).pc = s.pc := rfl
@[simp] theorem State.storeAtI_stack (bs : List Byte) : (s.storeAtI bs).stack = s.stack := rfl
@[simp] theorem State.storeAtI_depth (bs : List Byte) : (s.storeAtI bs).depth = s.depth := rfl
@[simp] theorem State.storeAtI_dt (bs : List Byte) : (s.storeAtI bs).dt = s.dt := rfl
@[simp] theorem State.storeAtI_st (bs : List Byte) : (s.storeAtI bs).st = s.st := rfl
@[simp] theorem State.storeAtI_run (bs : List Byte) : (s.storeAtI bs).run = s.run := rfl
@[simp] theorem State.storeAtI_mem (bs : List Byte) : (s.storeAtI bs).mem = Memory.writeBytes s.mem (s.ea 0) bs := rfl
@[simp] theorem State.storeAtI_fb (bs : List Byte) : (s.storeAtI bs).fb = s.fb := rfl
@[simp] theorem State.storeAtI_inputs (bs : List Byte) : (s.storeAtI bs).inputs = s.inputs := rfl
@[simp] theorem State.storeAtI_inputCount (bs : List Byte) : (s.storeAtI bs).inputCount = s.inputCount := rfl

/-! Reading a general register after an update. -/

theorem State.getV_def (x : Nibble) : s.getV x = s.v[x.toNat] := rfl

@[simp] theorem State.getV_setV_same (x : Nibble) (b : Byte) : (s.setV x b).getV x = b := by
  simp [State.getV]

theorem State.getV_setV (x j : Nibble) (b : Byte) :
    (s.setV x b).getV j = if j = x then b else s.getV j := by
  simp only [State.getV, State.setV_v, Vector.getElem_set]
  by_cases h : j = x
  · simp [h]
  · have : x.toNat ≠ j.toNat := fun e => h (BitVec.eq_of_toNat_eq e.symm)
    simp [h, this]

@[simp] theorem State.getV_setV_ne {x j : Nibble} (b : Byte) (h : j ≠ x) :
    (s.setV x b).getV j = s.getV j := by
  simp [State.getV_setV, h]

@[simp] theorem State.setI_getV (w : Addr) (j : Nibble) : (s.setI w).getV j = s.getV j := rfl
@[simp] theorem State.setPc_getV (p : Word) (j : Nibble) : (s.setPc p).getV j = s.getV j := rfl
@[simp] theorem State.setStack_getV (k : Vector Word 16) (d : Fin 17) (j : Nibble) : (s.setStack k d).getV j = s.getV j := rfl
@[simp] theorem State.setDT_getV (b : Byte) (j : Nibble) : (s.setDT b).getV j = s.getV j := rfl
@[simp] theorem State.setST_getV (b : Byte) (j : Nibble) : (s.setST b).getV j = s.getV j := rfl
@[simp] theorem State.setRun_getV (r : RunState) (j : Nibble) : (s.setRun r).getV j = s.getV j := rfl
@[simp] theorem State.setMem_getV (m : List Host.Cell) (j : Nibble) : (s.setMem m).getV j = s.getV j := rfl
@[simp] theorem State.setFB_getV (f : Framebuffer) (j : Nibble) : (s.setFB f).getV j = s.getV j := rfl
@[simp] theorem State.setInputs_getV (q : List Input) (n : Nat) (j : Nibble) : (s.setInputs q n).getV j = s.getV j := rfl
@[simp] theorem State.advance_getV (j : Nibble) : (s.advance).getV j = s.getV j := rfl
@[simp] theorem State.skipIf_getV (c : Bool) (j : Nibble) : (s.skipIf c).getV j = s.getV j := rfl
@[simp] theorem State.tick_getV (j : Nibble) : (s.tick).getV j = s.getV j := rfl
@[simp] theorem State.between_getV (j : Nibble) : (s.between).getV j = s.getV j := rfl
@[simp] theorem State.storeAtI_getV (bs : List Byte) (j : Nibble) : (s.storeAtI bs).getV j = s.getV j := rfl

/-! The input of a step after an update: only the queue and its index matter. -/

@[simp] theorem State.setV_input (x : Nibble) (b : Byte) : (s.setV x b).input = s.input := rfl
@[simp] theorem State.setRegs_input (v : Vector Byte 16) : (s.setRegs v).input = s.input := rfl
@[simp] theorem State.setI_input (w : Addr) : (s.setI w).input = s.input := rfl
@[simp] theorem State.setPc_input (p : Word) : (s.setPc p).input = s.input := rfl
@[simp] theorem State.setStack_input (k : Vector Word 16) (d : Fin 17) : (s.setStack k d).input = s.input := rfl
@[simp] theorem State.setDT_input (b : Byte) : (s.setDT b).input = s.input := rfl
@[simp] theorem State.setST_input (b : Byte) : (s.setST b).input = s.input := rfl
@[simp] theorem State.setRun_input (r : RunState) : (s.setRun r).input = s.input := rfl
@[simp] theorem State.setMem_input (m : List Host.Cell) : (s.setMem m).input = s.input := rfl
@[simp] theorem State.setFB_input (f : Framebuffer) : (s.setFB f).input = s.input := rfl
@[simp] theorem State.advance_input : (s.advance).input = s.input := rfl
@[simp] theorem State.skipIf_input (c : Bool) : (s.skipIf c).input = s.input := rfl
@[simp] theorem State.tick_input : (s.tick).input = s.input := rfl
@[simp] theorem State.storeAtI_input (bs : List Byte) : (s.storeAtI bs).input = s.input := rfl

@[simp] theorem State.setInputs_input_cons (inp : Input) (q : List Input) (n : Nat) :
    (s.setInputs (inp :: q) n).input = inp := rfl

/-! Reading a byte of memory or a pixel after an update that leaves memory or framebuffer alone. -/

@[simp] theorem State.setV_readMem (x : Nibble) (b : Byte) (a : Nat) : (s.setV x b).readMem a = s.readMem a := rfl
@[simp] theorem State.setV_view (x : Nibble) (b : Byte) (cx : Fin 64) (cy : Fin 32) : (s.setV x b).view cx cy = s.view cx cy := rfl
@[simp] theorem State.setRegs_readMem (v : Vector Byte 16) (a : Nat) : (s.setRegs v).readMem a = s.readMem a := rfl
@[simp] theorem State.setRegs_view (v : Vector Byte 16) (cx : Fin 64) (cy : Fin 32) : (s.setRegs v).view cx cy = s.view cx cy := rfl
@[simp] theorem State.setI_readMem (w : Addr) (a : Nat) : (s.setI w).readMem a = s.readMem a := rfl
@[simp] theorem State.setI_view (w : Addr) (cx : Fin 64) (cy : Fin 32) : (s.setI w).view cx cy = s.view cx cy := rfl
@[simp] theorem State.setPc_readMem (p : Word) (a : Nat) : (s.setPc p).readMem a = s.readMem a := rfl
@[simp] theorem State.setPc_view (p : Word) (cx : Fin 64) (cy : Fin 32) : (s.setPc p).view cx cy = s.view cx cy := rfl
@[simp] theorem State.setStack_readMem (k : Vector Word 16) (d : Fin 17) (a : Nat) : (s.setStack k d).readMem a = s.readMem a := rfl
@[simp] theorem State.setStack_view (k : Vector Word 16) (d : Fin 17) (cx : Fin 64) (cy : Fin 32) : (s.setStack k d).view cx cy = s.view cx cy := rfl
@[simp] theorem State.setDT_readMem (b : Byte) (a : Nat) : (s.setDT b).readMem a = s.readMem a := rfl
@[simp] theorem State.setDT_view (b : Byte) (cx : Fin 64) (cy : Fin 32) : (s.setDT b).view cx cy = s.view cx cy := rfl
@[simp] theorem State.setST_readMem (b : Byte) (a : Nat) : (s.setST b).readMem a = s.readMem a := rfl
@[simp] theorem State.setST_view (b : Byte) (cx : Fin 64) (cy : Fin 32) : (s.setST b).view cx cy = s.view cx cy := rfl
@[simp] theorem State.setRun_readMem (r : RunState) (a : Nat) : (s.setRun r).readMem a = s.readMem a := rfl
@[simp] theorem State.setRun_view (r : RunState) (cx : Fin 64) (cy : Fin 32) : (s.setRun r).view cx cy = s.view cx cy := rfl
@[simp] theorem State.setMem_view (m : List Host.Cell) (cx : Fin 64) (cy : Fin 32) : (s.setMem m).view cx cy = s.view cx cy := rfl
@[simp] theorem State.setFB_readMem (f : Framebuffer) (a : Nat) : (s.setFB f).readMem a = s.readMem a := rfl
@[simp] theorem State.setInputs_readMem (q : List Input) (n : Nat) (a : Nat) : (s.setInputs q n).readMem a = s.readMem a := rfl
@[simp] theorem State.setInputs_view (q : List Input) (n : Nat) (cx : Fin 64) (cy : Fin 32) : (s.setInputs q n).view cx cy = s.view cx cy := rfl
@[simp] theorem State.advance_readMem (a : Nat) : (s.advance).readMem a = s.readMem a := rfl
@[simp] theorem State.advance_view (cx : Fin 64) (cy : Fin 32) : (s.advance).view cx cy = s.view cx cy := rfl
@[simp] theorem State.skipIf_readMem (c : Bool) (a : Nat) : (s.skipIf c).readMem a = s.readMem a := rfl
@[simp] theorem State.skipIf_view (c : Bool) (cx : Fin 64) (cy : Fin 32) : (s.skipIf c).view cx cy = s.view cx cy := rfl
@[simp] theorem State.tick_readMem (a : Nat) : (s.tick).readMem a = s.readMem a := rfl
@[simp] theorem State.tick_view (cx : Fin 64) (cy : Fin 32) : (s.tick).view cx cy = s.view cx cy := rfl
@[simp] theorem State.between_readMem (a : Nat) : (s.between).readMem a = s.readMem a := rfl
@[simp] theorem State.between_view (cx : Fin 64) (cy : Fin 32) : (s.between).view cx cy = s.view cx cy := rfl
@[simp] theorem State.storeAtI_view (bs : List Byte) (cx : Fin 64) (cy : Fin 32) : (s.storeAtI bs).view cx cy = s.view cx cy := rfl

end Sys2Proof.Machine
end

