-- ==== Sys2Proof/Laws/Ops.lean ====
section
/-! SUPPORT. One lemma per shared operation: everything it can answer. -/

namespace Sys2Proof.Machine

/-! ## Stack -/

theorem State.push_room {s : State} (w : Word) (h : s.depth.val < 16) :
    s.push w = .ok (s.setStack (s.stack.set s.depth.val w) ⟨s.depth.val + 1, by omega⟩) := by
  simp [State.push, h]

theorem State.push_full {s : State} (w : Word) (h : ¬s.depth.val < 16) :
    s.push w = .error (.stackOverflow s.pc) := by
  simp [State.push, h]

theorem State.pop_some {s : State} (h : 0 < s.depth.val) :
    s.pop = .ok (s.stack[s.depth.val - 1], s.setStack s.stack ⟨s.depth.val - 1, by omega⟩) := by
  simp [State.pop, h]

theorem State.pop_empty {s : State} (h : ¬0 < s.depth.val) :
    s.pop = .error (.stackUnderflow s.pc) := by
  simp [State.pop, h]

/-! ## Range checks -/

theorem State.loadFault_none_iff (s : State) (n : Nat) :
    s.loadFault n = none ↔ n = 0 ∨ s.i.toNat + n ≤ 0x1000 := by
  unfold State.loadFault State.ea
  split_ifs with h <;> simp <;> omega

theorem State.loadFault_of_past {s : State} {n : Nat} (hn : 0 < n) (h : 0x1000 < s.i.toNat + n) :
    s.loadFault n = some (.addressOutOfRange 0x1000 .load s.pc) := by
  unfold State.loadFault State.ea
  rw [if_pos (by omega)]

theorem State.storeFault_none_iff (s : State) {n : Nat} (hn : 0 < n) :
    s.storeFault n = none ↔ 0x200 ≤ s.i.toNat ∧ s.i.toNat + n ≤ 0x1000 := by
  unfold State.storeFault State.ea Config.loadOrigin
  split_ifs with h1 h2 <;> simp <;> omega

theorem State.storeFault_of_past {s : State} {n : Nat} (h : 0x1000 < s.i.toNat + n) :
    s.storeFault n = some (.addressOutOfRange 0x1000 .store s.pc) := by
  unfold State.storeFault State.ea
  rw [if_pos (by omega)]

theorem State.storeFault_of_reserved {s : State} {n : Nat} (hn : n ≤ 16)
    (h : s.i.toNat < 0x200) :
    s.storeFault n = some (.addressOutOfRange (s.i.setWidth 16) .store s.pc) := by
  unfold State.storeFault State.ea Config.loadOrigin
  rw [if_neg (by omega), if_pos (by omega)]

/-- A byte of memory after a store at I. -/
theorem State.storeAtI_readMem (s : State) (bs : List Byte) (a : Nat) :
    (s.storeAtI bs).readMem a =
      if s.i.toNat ≤ a ∧ a < s.i.toNat + bs.length then bs.getD (a - s.i.toNat) 0
      else s.readMem a := by
  simp [State.readMem, State.ea, Memory.read_writeBytes]

theorem State.regsUpTo_length (s : State) (x : Nibble) : (s.regsUpTo x).length = x.toNat + 1 := by
  have := x.isLt
  simp [State.regsUpTo]
  omega

theorem State.regsUpTo_getD (s : State) (x j : Nibble) (h : j.toNat ≤ x.toNat) :
    (s.regsUpTo x).getD j.toNat 0 = s.getV j := by
  have hj := j.isLt
  have : j.toNat < x.toNat + 1 := by omega
  have e : s.v[j.toNat]? = some s.v[j.toNat] := Vector.getElem?_eq_getElem hj
  simp [State.regsUpTo, State.getV, this, e]

/-! ## Loading registers -/

theorem loadRegs_foldl_getElem (f : Nat → Byte) (n : Nat) (v : Vector Byte 16) (k : Nat)
    (hk : k < 16) :
    ((List.range n).foldl (fun v k => v.setIfInBounds k (f k)) v)[k] =
      if k < n then f k else v[k] := by
  induction n with
  | zero => simp
  | succ n ih =>
    rw [List.range_succ, List.foldl_append]
    simp only [List.foldl_cons, List.foldl_nil]
    rw [Vector.getElem_setIfInBounds, ih]
    by_cases h : n = k
    · subst h; simp
    · rw [if_neg h]
      by_cases h2 : k < n
      · rw [if_pos h2, if_pos (by omega)]
      · rw [if_neg h2, if_neg (by omega)]

/-- A register after V[0]..V[n-1] were loaded from I on. -/
theorem State.loadRegs_getV (s : State) (n : Nat) (j : Nibble) :
    (s.setRegs (s.loadRegs n)).getV j =
      if j.toNat < n then s.readMem (s.i.toNat + j.toNat) else s.getV j := by
  simp only [State.getV, State.setRegs_v, State.loadRegs]
  exact loadRegs_foldl_getElem (fun k => s.readMem (s.ea k)) n s.v j.toNat j.isLt

/-! ## Framebuffer and drawing -/

theorem fbGet_blank (cx : Fin 64) (cy : Fin 32) : fbGet fbBlank cx cy = false := by
  simp [fbGet, fbBlank]

theorem fbGet_set (fb : Framebuffer) (cx dx : Fin 64) (cy dy : Fin 32) (b : Bool) :
    fbGet (fbSet fb cx cy b) dx dy = if dx = cx ∧ dy = cy then b else fbGet fb dx dy := by
  simp only [fbGet, fbSet, Fin.getElem_fin, Vector.getElem_set, Fin.ext_iff]
  by_cases hy : (cy : Nat) = dy
  · by_cases hx : (cx : Nat) = dx
    · simp [hx, hy]
    · have : ¬(dx : Nat) = cx := fun e => hx e.symm
      simp [hx, hy, this]
  · have : ¬(dy : Nat) = cy := fun e => hy e.symm
    simp [hy, this]

theorem Canvas.plot_fb (c : Canvas) (cx dx : Fin 64) (cy dy : Fin 32) (bit : Bool) :
    fbGet (c.plot cx cy bit).fb dx dy =
      if dx = cx ∧ dy = cy then fbGet c.fb dx dy != bit else fbGet c.fb dx dy := by
  simp only [Canvas.plot, fbGet_set]
  by_cases h : dx = cx ∧ dy = cy
  · obtain ⟨rfl, rfl⟩ := h; simp
  · simp [h]

theorem Canvas.plot_collision (c : Canvas) (cx : Fin 64) (cy : Fin 32) (bit : Bool) :
    (c.plot cx cy bit).collision = (c.collision || (fbGet c.fb cx cy && bit)) := rfl

/-! ## Timers -/

theorem tickCounter_toNat (b : Byte) : (tickCounter b).toNat = b.toNat - 1 := by
  unfold tickCounter
  split_ifs with h
  · simp [h]
  · have : b.toNat ≠ 0 := fun e => h (BitVec.eq_of_toNat_eq (by simpa using e))
    have := b.isLt
    rw [BitVec.toNat_sub]
    simp
    omega

/-- n ticks take n off a counter, which holds at zero (R229). -/
theorem tickCounterN_toNat (n : Nat) (b : Byte) : (tickCounterN n b).toNat = b.toNat - n := by
  induction n generalizing b with
  | zero => rfl
  | succ n ih => rw [tickCounterN, ih, tickCounter_toNat]; omega

theorem elapse_toNat (n : Nat) (b : Byte) : (elapse n b).toNat = b.toNat - n := by
  unfold elapse
  split_ifs with h
  · simp [h]
  · exact tickCounterN_toNat n b

/-- n ticks between two steps are n single ticks. -/
theorem elapse_succ (n : Nat) (b : Byte) : elapse (n + 1) b = elapse n (tickCounter b) := by
  apply BitVec.eq_of_toNat_eq
  rw [elapse_toNat, elapse_toNat, tickCounter_toNat]
  omega

/-! ## Keys and digits -/

theorem State.keyOf_ok {s : State} {x : Nibble} (h : (s.getV x).toNat < 16) :
    s.keyOf x = .ok ⟨(s.getV x).toNat, h⟩ := by
  simp [State.keyOf, h]

theorem State.keyOf_error {s : State} {x : Nibble} (h : ¬(s.getV x).toNat < 16) :
    s.keyOf x = .error (.invalidKeyIndex (s.getV x) s.pc) := by
  simp [State.keyOf, h]

theorem State.glyphOf_ok {s : State} {x : Nibble} (h : (s.getV x).toNat ≤ 15) :
    s.glyphOf x = .ok (BitVec.ofNat 12 (5 * (s.getV x).toNat)) := by
  simp [State.glyphOf, h, Config.glyphBytes]

theorem State.glyphOf_error {s : State} {x : Nibble} (h : ¬(s.getV x).toNat ≤ 15) :
    s.glyphOf x = .error (.invalidFontDigit (s.getV x) s.pc) := by
  simp [State.glyphOf, h]

/-! ## Flag and result -/

/-- VF first, V[x] second (R122). -/
theorem State.writeFlagged_getV (s : State) (f : Bool) (x j : Nibble) (b : Byte) :
    (s.writeFlagged f x b).getV j =
      if j = x then b else if j = flagReg then flagByte f else s.getV j := by
  simp [State.writeFlagged, State.getV_setV]

/-! ## Fetching -/

theorem State.fetch_ok {s : State} (h : s.pc.toNat ≤ 0xFFE) :
    s.fetch = .ok (wordOfBytes (s.readMem s.pc.toNat) (s.readMem (s.pc.toNat + 1))) := by
  unfold State.fetch
  rw [if_neg (by omega), if_neg (by omega)]

theorem State.fetchInstr_ok {s : State} {i : Instr} (h : s.pc.toNat ≤ 0xFFE)
    (hd : decode (wordOfBytes (s.readMem s.pc.toNat) (s.readMem (s.pc.toNat + 1))) = .ok i) :
    s.fetchInstr = .ok i := by
  simp [State.fetchInstr, State.fetch_ok h, hd]

/-- What fetching an instruction reads: pc and the memory bytes, nothing else. -/
theorem State.fetchInstr_congr {s t : State} (hpc : t.pc = s.pc)
    (hm : ∀ a, t.readMem a = s.readMem a) : t.fetchInstr = s.fetchInstr := by
  simp [State.fetchInstr, State.fetch, hpc, hm]

/-! ## A step -/

theorem finishStep_next {o : Outcome} {t : State} :
    finishStep o = .next t ↔ ∃ u, o = .next u ∧ t = u.between := by
  cases o <;> simp [finishStep, eq_comm]

/-- What a completed step is: a wait, or an executed instruction; what lies between steps follows. -/
theorem step_next {s t : State} (h : step s = .next t) :
    (∃ kx, s.run = .awaitingKey kx ∧ t = (s.awaitStep kx).between) ∨
      (s.run = .running ∧ ∃ i u, s.fetchInstr = .ok i ∧ exec i s = .next u ∧ t = u.between) := by
  unfold step at h
  split at h
  next kx hr =>
    obtain ⟨u, hu, rfl⟩ := finishStep_next.mp h
    cases hu
    exact .inl ⟨kx, hr, rfl⟩
  next hr =>
    split at h
    · cases h
    next i hi =>
      obtain ⟨u, hu, rfl⟩ := finishStep_next.mp h
      exact .inr ⟨hr, i, u, hi, hu, rfl⟩

/-- What a step that faults is: a failed fetch or decode, or an instruction that faults. -/
theorem step_fault {s : State} {f : Fault} (h : step s = .fault f) :
    s.run = .running ∧
      (s.fetchInstr = .error f ∨ ∃ i, s.fetchInstr = .ok i ∧ exec i s = .fault f) := by
  unfold step at h
  split at h
  · cases h
  next hr =>
    refine ⟨hr, ?_⟩
    split at h
    next g hg =>
      cases h
      exact .inl hg
    next i hi =>
      refine .inr ⟨i, hi, ?_⟩
      cases he : exec i s <;> simp [he, finishStep] at h
      exact congrArg _ h

end Sys2Proof.Machine
end

