-- ==== Sys2Proof/Laws/Draw.lean ====
section
/-! SUPPORT. What the drawing loops of Dxyn leave in each pixel and in the collision flag
(43_display_input_timer.md R192), by one formula instead of loops. -/

namespace Sys2Proof.Machine

/-- The sprite column that falls on screen column dx, seen from origin column ox. -/
def spriteCol (ox : Nat) (dx : Fin 64) : Nat := (dx.val + 64 - ox % 64) % 64

/-- The sprite row that falls on screen row dy, seen from origin row oy. -/
def spriteRow (oy : Nat) (dy : Fin 32) : Nat := (dy.val + 32 - oy % 32) % 32

/-- The sprite bit that falls on a pixel; false where the sprite does not reach. -/
def spriteAt (ox oy : Nat) (bs : List Byte) (dx : Fin 64) (dy : Fin 32) : Bool :=
  decide (spriteCol ox dx < 8) && decide (spriteRow oy dy < bs.length) &&
    spriteBit (bs.getD (spriteRow oy dy) 0) (spriteCol ox dx)

theorem spriteCol_eq_iff {ox m : Nat} (dx : Fin 64) (hm : m < 64) :
    spriteCol ox dx = m ↔ dx = Fin.ofNat 64 (ox + m) := by
  have := dx.isLt
  simp only [spriteCol, Fin.ext_iff, Fin.val_ofNat]
  omega

theorem spriteRow_eq_zero_iff {oy : Nat} (dy : Fin 32) :
    spriteRow oy dy = 0 ↔ dy = Fin.ofNat 32 oy := by
  have := dy.isLt
  simp only [spriteRow, Fin.ext_iff, Fin.val_ofNat]
  omega

theorem spriteRow_succ {oy : Nat} (dy : Fin 32) :
    spriteRow (oy + 1) dy = if spriteRow oy dy = 0 then 31 else spriteRow oy dy - 1 := by
  have := dy.isLt
  by_cases h : spriteRow oy dy = 0
  · rw [if_pos h]
    simp only [spriteRow] at *
    omega
  · rw [if_neg h]
    simp only [spriteRow] at *
    omega

/-- The first m columns of a row: each pixel of the row under them is XORed once. -/
theorem plotCols_fb (cv : Canvas) (ox : Nat) (cy dy : Fin 32) (dx : Fin 64) (f : Nat → Bool)
    (m : Nat) (hm : m ≤ 64) :
    fbGet ((List.range m).foldl
        (fun cv c => cv.plot (Fin.ofNat 64 (ox + c)) cy (f c)) cv).fb dx dy =
      (fbGet cv.fb dx dy != (decide (dy = cy) && decide (spriteCol ox dx < m) &&
        f (spriteCol ox dx))) := by
  induction m with
  | zero => simp
  | succ m ih =>
    rw [List.range_succ, List.foldl_append]
    simp only [List.foldl_cons, List.foldl_nil]
    have e := propext (spriteCol_eq_iff (ox := ox) dx (by omega : m < 64))
    rw [Canvas.plot_fb, ih (by omega)]
    simp only [← e]
    by_cases hy : dy = cy <;> by_cases hc : spriteCol ox dx = m
    · simp [hy, hc]
    · have : spriteCol ox dx < m + 1 ↔ spriteCol ox dx < m := by omega
      simp [hy, hc, this]
    · simp [hy]
    · simp [hy]

theorem plotCols_collision (cv : Canvas) (ox : Nat) (cy : Fin 32) (f : Nat → Bool)
    (m : Nat) (hm : m ≤ 64) :
    ((List.range m).foldl
        (fun cv c => cv.plot (Fin.ofNat 64 (ox + c)) cy (f c)) cv).collision = true ↔
      cv.collision = true ∨
        ∃ dx, spriteCol ox dx < m ∧ fbGet cv.fb dx cy = true ∧ f (spriteCol ox dx) = true := by
  induction m with
  | zero => simp
  | succ m ih =>
    rw [List.range_succ, List.foldl_append]
    simp only [List.foldl_cons, List.foldl_nil, Canvas.plot_collision, Bool.or_eq_true, Bool.and_eq_true]
    rw [ih (by omega), plotCols_fb _ _ _ _ _ _ _ (by omega)]
    have e : spriteCol ox (Fin.ofNat 64 (ox + m)) = m := (spriteCol_eq_iff _ (by omega)).mpr rfl
    simp only [e, Nat.lt_irrefl, decide_false, Bool.and_false, Bool.false_and, Bool.bne_false]
    constructor
    · rintro ((h | ⟨dx, h1, h2, h3⟩) | ⟨h1, h2⟩)
      · exact .inl h
      · exact .inr ⟨dx, by omega, h2, h3⟩
      · exact .inr ⟨_, by omega, h1, by rw [e]; exact h2⟩
    · rintro (h | ⟨dx, h1, h2, h3⟩)
      · exact .inl (.inl h)
      · by_cases hc : spriteCol ox dx = m
        · have := (spriteCol_eq_iff dx (by omega)).mp hc
          subst this
          exact .inr ⟨h2, by rw [hc] at h3; exact h3⟩
        · exact .inl (.inr ⟨dx, by omega, h2, h3⟩)

/-- One row: the pixels of screen row cy under the eight columns are XORed with the byte's bits. -/
theorem Canvas.plotRow_fb (cv : Canvas) (ox : Nat) (cy dy : Fin 32) (dx : Fin 64) (b : Byte) :
    fbGet (cv.plotRow ox cy b).fb dx dy =
      (fbGet cv.fb dx dy != (decide (dy = cy) && decide (spriteCol ox dx < 8) &&
        spriteBit b (spriteCol ox dx))) :=
  plotCols_fb cv ox cy dy dx (spriteBit b) 8 (by omega)

theorem Canvas.plotRow_collision (cv : Canvas) (ox : Nat) (cy : Fin 32) (b : Byte) :
    (cv.plotRow ox cy b).collision = true ↔
      cv.collision = true ∨ ∃ dx, spriteCol ox dx < 8 ∧ fbGet cv.fb dx cy = true ∧
        spriteBit b (spriteCol ox dx) = true :=
  plotCols_collision cv ox cy (spriteBit b) 8 (by omega)

/-- The sprite bit on a pixel is that of the first row, or of the rows after it. -/
theorem spriteAt_cons (ox oy : Nat) (b : Byte) (bs : List Byte) (dx : Fin 64) (dy : Fin 32) :
    spriteAt ox oy (b :: bs) dx dy =
      if dy = Fin.ofNat 32 oy then decide (spriteCol ox dx < 8) && spriteBit b (spriteCol ox dx)
      else spriteAt ox (oy + 1) bs dx dy := by
  have hr := spriteRow_succ (oy := oy) dy
  by_cases h0 : dy = Fin.ofNat 32 oy
  · have hz := (spriteRow_eq_zero_iff dy).mpr h0
    rw [if_pos h0]
    simp [spriteAt, hz]
  · have hn : spriteRow oy dy ≠ 0 := fun e => h0 ((spriteRow_eq_zero_iff dy).mp e)
    rw [if_neg hn] at hr
    obtain ⟨k, hk⟩ := Nat.exists_eq_succ_of_ne_zero hn
    rw [if_neg h0]
    simp [spriteAt, hr, hk]

theorem spriteAt_first (ox oy : Nat) (bs : List Byte) (dx : Fin 64) (h : bs.length ≤ 31) :
    spriteAt ox (oy + 1) bs dx (Fin.ofNat 32 oy) = false := by
  have h0 := (spriteRow_eq_zero_iff (oy := oy) (Fin.ofNat 32 oy)).mpr rfl
  have hr := spriteRow_succ (oy := oy) (Fin.ofNat 32 oy)
  rw [if_pos h0] at hr
  have : ¬31 < bs.length := by omega
  unfold spriteAt
  rw [hr, decide_eq_false this]
  simp

/-- A whole sprite: every pixel is its old value XOR the sprite bit that falls on it. -/
theorem Canvas.plotRows_fb (bs : List Byte) (cv : Canvas) (ox oy : Nat) (dx : Fin 64)
    (dy : Fin 32) (h : bs.length ≤ 32) :
    fbGet (cv.plotRows ox oy bs).fb dx dy = (fbGet cv.fb dx dy != spriteAt ox oy bs dx dy) := by
  induction bs generalizing cv oy with
  | nil => simp [Canvas.plotRows, spriteAt]
  | cons b bs ih =>
    simp only [List.length_cons] at h
    rw [Canvas.plotRows, ih _ _ (by omega), Canvas.plotRow_fb, spriteAt_cons]
    by_cases h0 : dy = Fin.ofNat 32 oy
    · subst h0
      rw [spriteAt_first _ _ _ _ (by omega)]
      simp
    · rw [if_neg h0, decide_eq_false h0]
      simp

/-- The collision of a whole sprite: some set pixel lies under a set sprite bit. -/
theorem Canvas.plotRows_collision (bs : List Byte) (cv : Canvas) (ox oy : Nat)
    (h : bs.length ≤ 32) :
    (cv.plotRows ox oy bs).collision = true ↔
      cv.collision = true ∨
        ∃ dx dy, fbGet cv.fb dx dy = true ∧ spriteAt ox oy bs dx dy = true := by
  induction bs generalizing cv oy with
  | nil => simp [Canvas.plotRows, spriteAt]
  | cons b bs ih =>
    simp only [List.length_cons] at h
    rw [Canvas.plotRows, ih _ _ (by omega), Canvas.plotRow_collision]
    constructor
    · rintro ((h1 | ⟨dx, h1, h2, h3⟩) | ⟨dx, dy, h1, h2⟩)
      · exact .inl h1
      · refine .inr ⟨dx, _, h2, ?_⟩
        rw [spriteAt_cons]
        simp [h1, h3]
      · have h0 : dy ≠ Fin.ofNat 32 oy := by
          rintro rfl
          rw [spriteAt_first _ _ _ _ (by omega)] at h2
          cases h2
        refine .inr ⟨dx, dy, ?_, ?_⟩
        · rw [Canvas.plotRow_fb, decide_eq_false h0] at h1
          simpa using h1
        · rw [spriteAt_cons, if_neg h0]
          exact h2
    · rintro (h1 | ⟨dx, dy, h1, h2⟩)
      · exact .inl (.inl h1)
      · rw [spriteAt_cons] at h2
        by_cases h0 : dy = Fin.ofNat 32 oy
        · subst h0
          simp only [if_true, Bool.and_eq_true, decide_eq_true_eq] at h2
          exact .inl (.inr ⟨dx, h2.1, h1, h2.2⟩)
        · rw [if_neg h0] at h2
          refine .inr ⟨dx, dy, ?_, h2⟩
          rw [Canvas.plotRow_fb, decide_eq_false h0]
          simpa using h1

end Sys2Proof.Machine
end

