-- ==== Sys2Proof/Laws/Exec.lean ====
section
/-! SUPPORT. What a completed instruction is, for each instruction that may fault: the check passed, and the
next state. The other instructions answer one next state in every state, by unfolding. -/

namespace Sys2Proof.Machine

variable {s t : State}

theorem execRet_next (h : execRet s = .next t) :
    ∃ h : 0 < s.depth.val, t =
      (s.setStack s.stack ⟨s.depth.val - 1, by omega⟩).setPc (s.stack[s.depth.val - 1] + 2) := by
  by_cases hd : 0 < s.depth.val
  · simp only [execRet, State.pop_some hd] at h
    cases h
    exact ⟨hd, rfl⟩
  · simp only [execRet, State.pop_empty hd, raise] at h
    cases h

theorem execCall_next {nnn : Addr} (h : execCall nnn s = .next t) :
    ∃ h : s.depth.val < 16, t =
      (s.setStack (s.stack.set s.depth.val s.pc) ⟨s.depth.val + 1, by omega⟩).setPc
        (targetOf nnn) := by
  by_cases hd : s.depth.val < 16
  · simp only [execCall, State.push_room _ hd] at h
    cases h
    exact ⟨hd, rfl⟩
  · simp only [execCall, State.push_full _ hd, raise] at h
    cases h

theorem execLdFont_next {x : Nibble} (h : execLdFont x s = .next t) :
    ∃ a, s.glyphOf x = .ok a ∧ t = (s.setI a).advance := by
  unfold execLdFont at h
  split at h <;> cases h
  exact ⟨_, by assumption, rfl⟩

theorem execBcd_next {x : Nibble} (h : execBcd x s = .next t) :
    s.storeFault 3 = none ∧ t = (s.storeAtI (bcdDigits (s.getV x))).advance := by
  unfold execBcd at h
  split at h <;> cases h
  exact ⟨by assumption, rfl⟩

theorem execStore_next {x : Nibble} (h : execStore x s = .next t) :
    s.storeFault (x.toNat + 1) = none ∧ t = (s.storeAtI (s.regsUpTo x)).advance := by
  unfold execStore at h
  split at h <;> cases h
  exact ⟨by assumption, rfl⟩

theorem execLoad_next {x : Nibble} (h : execLoad x s = .next t) :
    s.loadFault (x.toNat + 1) = none ∧
      t = (s.setRegs (s.loadRegs (x.toNat + 1))).advance := by
  unfold execLoad at h
  split at h <;> cases h
  exact ⟨by assumption, rfl⟩

theorem execDrw_next {x y n : Nibble} (h : execDrw x y n s = .next t) :
    s.loadFault n.toNat = none ∧
      t = ((s.setFB (s.drawn x y n).fb).setV flagReg
        (flagByte (s.drawn x y n).collision)).advance := by
  unfold execDrw at h
  split at h <;> cases h
  exact ⟨by assumption, rfl⟩

theorem execSkp_next {x : Nibble} (h : execSkp x s = .next t) :
    ∃ k, s.keyOf x = .ok k ∧ t = s.skipIf (s.keyIsDown k) := by
  unfold execSkp at h
  split at h <;> cases h
  exact ⟨_, by assumption, rfl⟩

theorem execSknp_next {x : Nibble} (h : execSknp x s = .next t) :
    ∃ k, s.keyOf x = .ok k ∧ t = s.skipIf (!s.keyIsDown k) := by
  unfold execSknp at h
  split at h <;> cases h
  exact ⟨_, by assumption, rfl⟩

/-- A waiting step without an event changes nothing. -/
theorem State.awaitStep_none {kx : Nibble} (h : s.input.keyPress = none) : s.awaitStep kx = s := by
  simp [State.awaitStep, h]

/-- A waiting step with event k ends the wait. -/
theorem State.awaitStep_some {kx k : Nibble} (h : s.input.keyPress = some k) :
    s.awaitStep kx = ((s.setV kx (k.setWidth 8)).advance).setRun .running := by
  simp [State.awaitStep, h]

/-- The invariant speaks of memory, run state and pc only. -/
theorem State.Inv.congr (hi : s.Inv) (hm : t.mem = s.mem) (hr : t.run = s.run)
    (hp : t.pc = s.pc) : t.Inv where
  wf := hm ▸ hi.wf
  reserved a ha := by simpa [State.readMem, hm] using hi.reserved a ha
  waiting kx h :=
    (State.fetchInstr_congr hp (fun a => by simp [State.readMem, hm])).trans
      (hi.waiting kx (hr ▸ h))

end Sys2Proof.Machine
end

