-- ==== Sys2Proof/Laws/PerInstr.lean ====
section
/-! SUPPORT. Statements about every instruction, one lemma per constructor: the encoded word matches the
instruction's own row of the opcode map (30_encoding.md R94). -/

namespace Sys2Proof.Laws.RowMatch

/-- Mask and match of the instruction's row, as R94 prints them. -/
def row : Instr → Word × Word
  | .cls => (0xFFFF, 0x00E0)
  | .ret => (0xFFFF, 0x00EE)
  | .sys _ => (0xF000, 0x0000)
  | .jp _ => (0xF000, 0x1000)
  | .call _ => (0xF000, 0x2000)
  | .seImm _ _ => (0xF000, 0x3000)
  | .sneImm _ _ => (0xF000, 0x4000)
  | .seReg _ _ => (0xF00F, 0x5000)
  | .ldImm _ _ => (0xF000, 0x6000)
  | .addImm _ _ => (0xF000, 0x7000)
  | .ldReg _ _ => (0xF00F, 0x8000)
  | .orReg _ _ => (0xF00F, 0x8001)
  | .andReg _ _ => (0xF00F, 0x8002)
  | .xorReg _ _ => (0xF00F, 0x8003)
  | .addReg _ _ => (0xF00F, 0x8004)
  | .sub _ _ => (0xF00F, 0x8005)
  | .shr _ _ => (0xF00F, 0x8006)
  | .subn _ _ => (0xF00F, 0x8007)
  | .shl _ _ => (0xF00F, 0x800E)
  | .sneReg _ _ => (0xF00F, 0x9000)
  | .ldI _ => (0xF000, 0xA000)
  | .jpV0 _ => (0xF000, 0xB000)
  | .rnd _ _ => (0xF000, 0xC000)
  | .drw _ _ _ => (0xF000, 0xD000)
  | .skp _ => (0xF0FF, 0xE09E)
  | .sknp _ => (0xF0FF, 0xE0A1)
  | .ldVxDT _ => (0xF0FF, 0xF007)
  | .ldKey _ => (0xF0FF, 0xF00A)
  | .ldDTVx _ => (0xF0FF, 0xF015)
  | .ldSTVx _ => (0xF0FF, 0xF018)
  | .addI _ => (0xF0FF, 0xF01E)
  | .ldFont _ => (0xF0FF, 0xF029)
  | .bcd _ => (0xF0FF, 0xF033)
  | .store _ => (0xF0FF, 0xF055)
  | .load _ => (0xF0FF, 0xF065)

/-- The encoded word selects the instruction's own row: word AND mask = match (R94). -/
def Statement (i : Instr) : Prop := encode i &&& (row i).1 = (row i).2

/-! What the masks of the map keep: the first nibble, the first and the fourth, all but the second. -/

theorem packN_mask (op : Nibble) (nnn : Addr) : packN op nnn &&& 0xF000 = packN op 0 := by
  apply BitVec.eq_of_getLsbD_eq
  intro i hi
  rw [BitVec.getLsbD_and, packN_bit, packN_bit]
  interval_cases i <;> simp

theorem packK_mask (op x : Nibble) (kk : Byte) : packK op x kk &&& 0xF000 = packK op 0 0 := by
  apply BitVec.eq_of_getLsbD_eq
  intro i hi
  rw [BitVec.getLsbD_and, packK_bit, packK_bit]
  interval_cases i <;> simp

theorem packK_mask_byte (op x : Nibble) (kk : Byte) : packK op x kk &&& 0xF0FF = packK op 0 kk := by
  apply BitVec.eq_of_getLsbD_eq
  intro i hi
  rw [BitVec.getLsbD_and, packK_bit, packK_bit]
  interval_cases i <;> simp

theorem packY_mask (op x y n : Nibble) : packY op x y n &&& 0xF000 = packY op 0 0 0 := by
  apply BitVec.eq_of_getLsbD_eq
  intro i hi
  rw [BitVec.getLsbD_and, packY_bit, packY_bit]
  interval_cases i <;> simp

theorem packY_mask_nibble (op x y n : Nibble) :
    packY op x y n &&& 0xF00F = packY op 0 0 n := by
  apply BitVec.eq_of_getLsbD_eq
  intro i hi
  rw [BitVec.getLsbD_and, packY_bit, packY_bit]
  interval_cases i <;> simp

theorem cls : Statement .cls := rfl
theorem ret : Statement .ret := rfl
theorem sys (nnn : Addr) : Statement (.sys nnn) := packN_mask _ nnn
theorem jp (nnn : Addr) : Statement (.jp nnn) := packN_mask _ nnn
theorem call (nnn : Addr) : Statement (.call nnn) := packN_mask _ nnn
theorem seImm (x : Nibble) (kk : Byte) : Statement (.seImm x kk) := packK_mask _ x kk
theorem sneImm (x : Nibble) (kk : Byte) : Statement (.sneImm x kk) := packK_mask _ x kk
theorem seReg (x y : Nibble) : Statement (.seReg x y) := packY_mask_nibble _ x y _
theorem ldImm (x : Nibble) (kk : Byte) : Statement (.ldImm x kk) := packK_mask _ x kk
theorem addImm (x : Nibble) (kk : Byte) : Statement (.addImm x kk) := packK_mask _ x kk
theorem ldReg (x y : Nibble) : Statement (.ldReg x y) := packY_mask_nibble _ x y _
theorem orReg (x y : Nibble) : Statement (.orReg x y) := packY_mask_nibble _ x y _
theorem andReg (x y : Nibble) : Statement (.andReg x y) := packY_mask_nibble _ x y _
theorem xorReg (x y : Nibble) : Statement (.xorReg x y) := packY_mask_nibble _ x y _
theorem addReg (x y : Nibble) : Statement (.addReg x y) := packY_mask_nibble _ x y _
theorem sub (x y : Nibble) : Statement (.sub x y) := packY_mask_nibble _ x y _
theorem shr (x y : Nibble) : Statement (.shr x y) := packY_mask_nibble _ x y _
theorem subn (x y : Nibble) : Statement (.subn x y) := packY_mask_nibble _ x y _
theorem shl (x y : Nibble) : Statement (.shl x y) := packY_mask_nibble _ x y _
theorem sneReg (x y : Nibble) : Statement (.sneReg x y) := packY_mask_nibble _ x y _
theorem ldI (nnn : Addr) : Statement (.ldI nnn) := packN_mask _ nnn
theorem jpV0 (nnn : Addr) : Statement (.jpV0 nnn) := packN_mask _ nnn
theorem rnd (x : Nibble) (kk : Byte) : Statement (.rnd x kk) := packK_mask _ x kk
theorem drw (x y n : Nibble) : Statement (.drw x y n) := packY_mask _ x y n
theorem skp (x : Nibble) : Statement (.skp x) := packK_mask_byte _ x _
theorem sknp (x : Nibble) : Statement (.sknp x) := packK_mask_byte _ x _
theorem ldVxDT (x : Nibble) : Statement (.ldVxDT x) := packK_mask_byte _ x _
theorem ldKey (x : Nibble) : Statement (.ldKey x) := packK_mask_byte _ x _
theorem ldDTVx (x : Nibble) : Statement (.ldDTVx x) := packK_mask_byte _ x _
theorem ldSTVx (x : Nibble) : Statement (.ldSTVx x) := packK_mask_byte _ x _
theorem addI (x : Nibble) : Statement (.addI x) := packK_mask_byte _ x _
theorem ldFont (x : Nibble) : Statement (.ldFont x) := packK_mask_byte _ x _
theorem bcd (x : Nibble) : Statement (.bcd x) := packK_mask_byte _ x _
theorem store (x : Nibble) : Statement (.store x) := packK_mask_byte _ x _
theorem load (x : Nibble) : Statement (.load x) := packK_mask_byte _ x _

end Sys2Proof.Laws.RowMatch
end

