-- ==== Sys2Proof/Tests/Slice0.lean ====
section
/-! SUPPORT. The session's own tests: ill-formed terms, words written out bit by bit from 30_encoding.md R94,
single steps whose expected values are the vectors of 95_test_vectors.md (named after them), and a witness
for the hypotheses of each obligation. -/

namespace Sys2Proof.Tests

open Sys2Proof Sys2Proof.Machine

/-! ## Well-formedness: the one check, refused and passed -/

theorem test_wf_sys_cls : (Instr.sys 0x0E0).wellFormed = false := by decide
theorem test_wf_sys_ret : (Instr.sys 0x0EE).wellFormed = false := by decide
theorem test_wf_sys_others : (Instr.sys 0x0E1).wellFormed = true ∧ (Instr.sys 0).wellFormed = true := by
  decide

/-! ## Decoding: each constructor's word, bit by bit (R94) -/

theorem test_decode_control :
    decode 0b0000_0000_1110_0000 = .ok (.cls) ∧
    decode 0b0000_0000_1110_1110 = .ok (.ret) ∧
    decode 0b0000_0001_0010_0011 = .ok (.sys 0x123) ∧
    decode 0b0001_1010_1011_1100 = .ok (.jp 0xABC) ∧
    decode 0b0010_0010_0000_1010 = .ok (.call 0x20A) ∧
    decode 0b0011_0001_1111_0000 = .ok (.seImm 0x1 0xF0) ∧
    decode 0b0100_0010_0001_0001 = .ok (.sneImm 0x2 0x11) ∧
    decode 0b0101_0001_0010_0000 = .ok (.seReg 0x1 0x2) ∧
    decode 0b1001_0001_0010_0000 = .ok (.sneReg 0x1 0x2) ∧
    decode 0b1011_0011_0000_0001 = .ok (.jpV0 0x301) := by
  decide

theorem test_encode_control :
    encode (.cls) = 0b0000_0000_1110_0000 ∧
    encode (.ret) = 0b0000_0000_1110_1110 ∧
    encode (.sys 0x123) = 0b0000_0001_0010_0011 ∧
    encode (.jp 0xABC) = 0b0001_1010_1011_1100 ∧
    encode (.call 0x20A) = 0b0010_0010_0000_1010 ∧
    encode (.seImm 0x1 0xF0) = 0b0011_0001_1111_0000 ∧
    encode (.sneImm 0x2 0x11) = 0b0100_0010_0001_0001 ∧
    encode (.seReg 0x1 0x2) = 0b0101_0001_0010_0000 ∧
    encode (.sneReg 0x1 0x2) = 0b1001_0001_0010_0000 ∧
    encode (.jpV0 0x301) = 0b1011_0011_0000_0001 := by
  decide

theorem test_decode_arith :
    decode 0b0110_1010_1111_1110 = .ok (.ldImm 0xA 0xFE) ∧
    decode 0b0111_0011_0000_0010 = .ok (.addImm 0x3 0x02) ∧
    decode 0b1000_0010_0001_0000 = .ok (.ldReg 0x2 0x1) ∧
    decode 0b1000_1010_1011_0001 = .ok (.orReg 0xA 0xB) ∧
    decode 0b1000_1010_1011_0010 = .ok (.andReg 0xA 0xB) ∧
    decode 0b1000_1010_1011_0011 = .ok (.xorReg 0xA 0xB) := by
  decide

theorem test_encode_arith :
    encode (.ldImm 0xA 0xFE) = 0b0110_1010_1111_1110 ∧
    encode (.addImm 0x3 0x02) = 0b0111_0011_0000_0010 ∧
    encode (.ldReg 0x2 0x1) = 0b1000_0010_0001_0000 ∧
    encode (.orReg 0xA 0xB) = 0b1000_1010_1011_0001 ∧
    encode (.andReg 0xA 0xB) = 0b1000_1010_1011_0010 ∧
    encode (.xorReg 0xA 0xB) = 0b1000_1010_1011_0011 := by
  decide

theorem test_decode_flags :
    decode 0b1000_1010_1011_0100 = .ok (.addReg 0xA 0xB) ∧
    decode 0b1000_1010_1011_0101 = .ok (.sub 0xA 0xB) ∧
    decode 0b1000_1010_1011_0110 = .ok (.shr 0xA 0xB) ∧
    decode 0b1000_1010_1011_0111 = .ok (.subn 0xA 0xB) ∧
    decode 0b1000_1010_1011_1110 = .ok (.shl 0xA 0xB) ∧
    decode 0b1100_0011_0000_1111 = .ok (.rnd 0x3 0x0F) := by
  decide

theorem test_encode_flags :
    encode (.addReg 0xA 0xB) = 0b1000_1010_1011_0100 ∧
    encode (.sub 0xA 0xB) = 0b1000_1010_1011_0101 ∧
    encode (.shr 0xA 0xB) = 0b1000_1010_1011_0110 ∧
    encode (.subn 0xA 0xB) = 0b1000_1010_1011_0111 ∧
    encode (.shl 0xA 0xB) = 0b1000_1010_1011_1110 ∧
    encode (.rnd 0x3 0x0F) = 0b1100_0011_0000_1111 := by
  decide

theorem test_decode_block :
    decode 0b1010_0011_0000_0001 = .ok (.ldI 0x301) ∧
    decode 0b1111_0010_0001_1110 = .ok (.addI 0x2) ∧
    decode 0b1111_0001_0010_1001 = .ok (.ldFont 0x1) ∧
    decode 0b1111_0111_0011_0011 = .ok (.bcd 0x7) ∧
    decode 0b1111_0010_0101_0101 = .ok (.store 0x2) ∧
    decode 0b1111_1110_0110_0101 = .ok (.load 0xE) := by
  decide

theorem test_encode_block :
    encode (.ldI 0x301) = 0b1010_0011_0000_0001 ∧
    encode (.addI 0x2) = 0b1111_0010_0001_1110 ∧
    encode (.ldFont 0x1) = 0b1111_0001_0010_1001 ∧
    encode (.bcd 0x7) = 0b1111_0111_0011_0011 ∧
    encode (.store 0x2) = 0b1111_0010_0101_0101 ∧
    encode (.load 0xE) = 0b1111_1110_0110_0101 := by
  decide

theorem test_decode_device :
    decode 0b1101_0001_0010_0101 = .ok (.drw 0x1 0x2 0x5) ∧
    decode 0b1110_1110_1001_1110 = .ok (.skp 0xE) ∧
    decode 0b1110_0101_1010_0001 = .ok (.sknp 0x5) ∧
    decode 0b1111_0100_0000_0111 = .ok (.ldVxDT 0x4) ∧
    decode 0b1111_0011_0000_1010 = .ok (.ldKey 0x3) ∧
    decode 0b1111_0100_0001_0101 = .ok (.ldDTVx 0x4) ∧
    decode 0b1111_0001_0001_1000 = .ok (.ldSTVx 0x1) := by
  decide

theorem test_encode_device :
    encode (.drw 0x1 0x2 0x5) = 0b1101_0001_0010_0101 ∧
    encode (.skp 0xE) = 0b1110_1110_1001_1110 ∧
    encode (.sknp 0x5) = 0b1110_0101_1010_0001 ∧
    encode (.ldVxDT 0x4) = 0b1111_0100_0000_0111 ∧
    encode (.ldKey 0x3) = 0b1111_0011_0000_1010 ∧
    encode (.ldDTVx 0x4) = 0b1111_0100_0001_0101 ∧
    encode (.ldSTVx 0x1) = 0b1111_0001_0001_1000 := by
  decide

/-- X1, X4, X5, X6, X7: illegal words, by the family's name. -/
theorem test_decode_illegal :
    decode 0x8008 = .error (.family8 0x8008) ∧ decode 0x800F = .error (.family8 0x800F) ∧
    decode 0x5011 = .error (.family5 0x5011) ∧ decode 0x9ABF = .error (.family9 0x9ABF) ∧
    decode 0xE09F = .error (.familyE 0xE09F) ∧ decode 0xF130 = .error (.familyF 0xF130) := by decide

/-- X9: extended-set words are plain system calls here; X12: big-endian. -/
theorem test_decode_bytes :
    decode 0x00FE = .ok (.sys 0x0FE) ∧ decodeBytes [0x12, 0x34, 0x56] = .ok (.jp 0x234, [0x56]) ∧
    decodeBytes [0x12] = .error .truncated ∧ decodeTableWord 16 0x1234 = some (.jp 0x234) := by decide

/-! ## A small state builder and observers -/

/-- What an observer sees of a next state. -/
def seen {α : Type} (o : Outcome) (f : State → α) : Option α :=
  match o with
  | .next s => some (f s)
  | _ => none

/-- The fault of an outcome. -/
def faultOf (o : Outcome) : Option Fault :=
  match o with
  | .fault f => some f
  | _ => none

/-- The reset state with the given word at 0x200 and an input that presents nothing. -/
def start (w : Nat) : State :=
  (State.reset.withFetchWord 16 w).setInputs [⟨0, none, 0, 0⟩] 0

/-- The same with a given input. -/
def startWith (w : Nat) (inp : Input) : State := (State.reset.withFetchWord 16 w).setInputs [inp] 0

/-- Memory with the given bytes from address a. -/
def poke (s : State) (a : Nat) (bs : List Byte) : State :=
  s.setMem (Memory.writeBytes s.mem a bs)

/-- V[x], VF and pc of a state. -/
def vfp (x : Nibble) (s : State) : Byte × Byte × Word := (s.getV x, s.getV 0xF, s.pc)

/-- A call stack whose slot 15 and slot 0 hold the given words. -/
def slots (a b : Word) : Vector Word 16 := (State.reset.stack.set 0 a).set 15 b

/-! ## Single steps (95_test_vectors.md section 2.1) -/

/-- A2 -/
theorem test_ldImm_VF :
    seen (step ((start 0x6F00).setV 0xF 1)) (vfp 0xF) = some (0, 0, 0x202) := by decide

/-- A3 -/
theorem test_addImm_wraps :
    seen (step ((start 0x7302).setV 0x3 0xFF)) (vfp 0x3) = some (0x01, 0, 0x202) := by decide

/-- A5 -/
theorem test_addImm_VF :
    seen (step ((start 0x7F03).setV 0xF 0xFE)) (vfp 0xF) = some (0x01, 0x01, 0x202) := by decide

/-- A6 -/
theorem test_ldReg :
    seen (step ((start 0x8210).setV 0x1 0x7C)) (vfp 0x2) = some (0x7C, 0, 0x202) := by decide

/-- A12, A7: contents, not nibbles; VF untouched -/
theorem test_orReg :
    seen (step ((((start 0x8271).setV 0x2 0x10).setV 0x7 0x20).setV 0xF 7)) (vfp 0x2) = some (0x30, 7, 0x202) := by decide

/-- A11, A8 -/
theorem test_andReg :
    seen (step ((((start 0x8272).setV 0x2 0x03).setV 0x7 0x04).setV 0xF 7)) (vfp 0x2) = some (0x00, 7, 0x202) := by decide

/-- A9 -/
theorem test_xorReg :
    seen (step ((((start 0x8013).setV 0x0 0xFF).setV 0x1 0x0F).setV 0xF 7)) (vfp 0x0) = some (0xF0, 7, 0x202) := by decide

/-- A13 -/
theorem test_addReg_256 :
    seen (step (((start 0x8014).setV 0x0 0xFF).setV 0x1 0x01)) (vfp 0x0) = some (0x00, 1, 0x202) := by decide

/-- A16: the result overwrites the carry -/
theorem test_addReg_x15 :
    seen (step (((start 0x8F14).setV 0xF 0xF0).setV 0x1 0x20)) (vfp 0xF) = some (0x10, 0x10, 0x202) := by decide

/-- A19 -/
theorem test_sub_equal :
    seen (step ((((start 0x8015).setV 0x0 7).setV 0x1 7).setV 0xF 1)) (vfp 0x0) = some (0, 0, 0x202) := by decide

/-- A24: the old VF is the operand -/
theorem test_sub_y15 :
    seen (step (((start 0x81F5).setV 0x1 9).setV 0xF 1)) (vfp 0x1) = some (8, 1, 0x202) := by decide

/-- A28 -/
theorem test_shr_ignores_y :
    seen (step (((start 0x8016).setV 0x0 0x80).setV 0x1 0x55)) (vfp 0x0) = some (0x40, 0, 0x202) := by decide

/-- A30 -/
theorem test_shr_x15 :
    seen (step ((start 0x8F06).setV 0xF 7)) (vfp 0xF) = some (3, 3, 0x202) := by decide

/-- A31 -/
theorem test_subn :
    seen (step (((start 0x8237).setV 0x2 5).setV 0x3 10)) (vfp 0x2) = some (5, 1, 0x202) := by decide

/-- A32 -/
theorem test_subn_wraps :
    seen (step ((((start 0x8237).setV 0x2 10).setV 0x3 5).setV 0xF 1)) (vfp 0x2) = some (0xFB, 0, 0x202) := by decide

/-- A36 -/
theorem test_shl :
    seen (step ((start 0x840E).setV 0x4 0x81)) (vfp 0x4) = some (0x02, 1, 0x202) := by decide

/-- A41 -/
theorem test_shl_x15 :
    seen (step ((start 0x8F0E).setV 0xF 0xC1)) (vfp 0xF) = some (0x82, 0x82, 0x202) := by decide

/-- A42 -/
theorem test_rnd :
    seen (step (startWith 0xC30F ⟨0, none, 0xA7, 0⟩)) (vfp 0x3) = some (0x07, 0, 0x202) := by decide

/-! ## Control flow (section 2.2) -/

/-- B3 -/
theorem test_sys :
    seen (step ((start 0x0EEE).setStack State.reset.stack 3)) (fun s => (s.pc, s.sp)) = some (0x202, 2) := by decide

/-- B5 -/
theorem test_ret_underflow :
    faultOf (step (start 0x00EE)) = some (.stackUnderflow 0x200) := by decide

/-- B7, B6: the slot is not cleared -/
theorem test_ret_top :
    seen (step ((start 0x00EE).setStack (slots 0 0x300) 16)) (fun s => (s.pc, s.sp, s.stack[15])) = some (0x302, 14, 0x300) := by decide

/-- B9 -/
theorem test_jp :
    seen (step ((start 0x1FFF))) (fun s => s.pc) = some 0xFFF := by decide

/-- B12 -/
theorem test_call_last_frame :
    seen (step ((start 0x2400).setStack State.reset.stack 15)) (fun s => (s.pc, s.sp, s.stack[15])) = some (0x400, 15, 0x200) := by decide

/-- B13 -/
theorem test_call_overflow :
    faultOf (step ((start 0x2400).setStack State.reset.stack 16)) = some (.stackOverflow 0x200) := by decide

/-- B16, B15 -/
theorem test_seImm :
    seen (step ((start 0x3F01).setV 0xF 1)) (fun s => s.pc) = some 0x204 ∧
    seen (step ((start 0x3100).setV 0x1 1)) (fun s => s.pc) = some 0x202 := by decide

/-- B17, B18 -/
theorem test_sneImm :
    seen (step ((start 0x4211).setV 0x2 0x10)) (fun s => s.pc) = some 0x204 ∧
    seen (step ((start 0x4210).setV 0x2 0x10)) (fun s => s.pc) = some 0x202 := by decide

/-- B21, B20 -/
theorem test_seReg :
    seen (step ((start 0x5330).setV 0x3 9)) (fun s => s.pc) = some 0x204 ∧
    seen (step ((start 0x5010).setV 0x1 8)) (fun s => s.pc) = some 0x202 := by decide

/-- B22, B24 -/
theorem test_sneReg :
    seen (step ((start 0x9010).setV 0x1 8)) (fun s => s.pc) = some 0x204 ∧
    seen (step ((start 0x9330).setV 0x3 9)) (fun s => s.pc) = some 0x202 := by decide

/-- B26 -/
theorem test_jpV0 :
    seen (step ((start 0xBFFF).setV 0x0 0xFF)) (fun s => s.pc) = some 0x10FE := by decide

/-- B29 -/
theorem test_fetch_last :
    seen (step (poke ((start 0).setPc 0xFFE) 0xFFE [0x60, 0x07])) (vfp 0x0) = some (7, 0, 0x1000) := by decide

/-- B30, B26 -/
theorem test_fetch_past :
    faultOf (step ((start 0).setPc 0xFFF)) = some (.addressOutOfRange 0x1000 .fetch 0xFFF) ∧
    faultOf (step ((start 0).setPc 0x10FE)) = some (.addressOutOfRange 0x10FE .fetch 0x10FE) := by decide

/-! ## Address register, blocks, BCD (section 2.3) -/

/-- M1 -/
theorem test_ldI :
    seen (step ((start 0xAFFF))) (fun s => (s.i, s.pc)) = some (0xFFF, 0x202) := by decide

/-- M5 -/
theorem test_addI_wraps :
    seen (step ((start 0xFF1E).setI 0xFFF |>.setV 0xF 0xFF)) (fun s => (s.i, s.getV 0xF)) = some (0x0FE, 0xFF) := by decide

/-- T15 -/
theorem test_ldFont :
    seen (step ((start 0xF229).setV 0x2 0x0F)) (fun s => s.i) = some 75 := by decide

/-- M8 -/
theorem test_ldFont_fault :
    faultOf (step ((start 0xF129).setV 0x1 0x1A)) = some (.invalidFontDigit 0x1A 0x200) := by decide

/-- M14, M15 -/
theorem test_bcd_last :
    seen (step ((start 0xF033).setI 0xFFD |>.setV 0x0 199)) (fun s => Memory.readBytes s.mem 0xFFC 4) = some [0, 1, 9, 9] := by decide

/-- M16, M17 -/
theorem test_bcd_faults :
    faultOf (step (((start 0xF033).setI 0xFFE).setV 0x0 10)) = some (.addressOutOfRange 0x1000 .store 0x200) ∧
    faultOf (step ((start 0xF033).setI 0x1FF)) = some (.addressOutOfRange 0x1FF .store 0x200) := by decide

/-- M19, M20 -/
theorem test_store :
    seen (step ((((((start 0xF155).setI 0x400).setV 0x0 0x11).setV 0x1 0x22).setV 0x2 0x33)))
      (fun s => (Memory.readBytes s.mem 0x400 3, s.i)) = some ([0x11, 0x22, 0], 0x400) := by decide

/-- M22, M23 -/
theorem test_store_faults :
    faultOf (step ((start 0xF255).setI 0xFFE)) = some (.addressOutOfRange 0x1000 .store 0x200) ∧
    faultOf (step ((start 0xF155).setI 0x1FF)) = some (.addressOutOfRange 0x1FF .store 0x200) := by decide

/-- M25, T10 -/
theorem test_load_font :
    seen (step ((start 0xF465).setI 0x032 |>.setV 0x5 1)) (fun s => ([s.getV 0, s.getV 1, s.getV 2, s.getV 3, s.getV 4, s.getV 5], s.i)) = some ([0xF0, 0x90, 0xF0, 0x90, 0x90, 1], 0x032) := by decide

/-- M27 -/
theorem test_load_fault :
    faultOf (step ((start 0xF165).setI 0xFFF)) = some (.addressOutOfRange 0x1000 .load 0x200) := by decide

/-! ## Display, keypad, timers (section 2.4) -/

/-- A framebuffer with one set pixel. -/
def onePixel (cx : Fin 64) (cy : Fin 32) : Framebuffer := fbSet fbBlank cx cy true

/-- T12 -/
theorem test_cls :
    seen (step ((start 0x00E0).setFB (onePixel 63 31))) (fun s => (s.view 63 31, s.pc)) = some (false, 0x202) := by decide

/-- E2, E3, E4 -/
theorem test_drw_wraps :
    seen (step (poke ((((start 0xD012).setI 0x300).setV 0x0 60).setV 0x1 31) 0x300 [0xFF, 0x01]))
      (fun s => (s.view 60 31, s.view 3 31, s.view 4 31, s.view 3 0, s.view 2 0, s.getV 0xF)) =
      some (true, true, false, true, false, 0) := by decide

/-- E6 -/
theorem test_drw_collision :
    seen (step (poke (((start 0xD011).setI 0x300).setFB (onePixel 0 0)) 0x300 [0xC0]))
      (fun s => (s.view 0 0, s.view 1 0, s.getV 0xF, s.pc)) = some (false, true, 1, 0x202) := by decide

/-- E10, E11 -/
theorem test_drw_fault :
    faultOf (step ((start 0xD012).setI 0xFFF)) = some (.addressOutOfRange 0x1000 .load 0x200) ∧
    seen (step ((start 0xD010).setI 0xFFF |>.setV 0xF 1)) (vfp 0x0) = some (0, 0, 0x202) := by decide

/-- E13, E14, E19 -/
theorem test_skp :
    seen (step ((startWith 0xE59E ⟨0x0080, none, 0, 0⟩).setV 0x5 7)) (fun s => s.pc) = some 0x204 ∧
    seen (step ((startWith 0xE59E ⟨0xFF7F, some 7, 0, 0⟩).setV 0x5 7)) (fun s => s.pc) = some 0x202 := by decide

/-- E15, E18 -/
theorem test_sknp :
    seen (step ((startWith 0xE5A1 ⟨0x0080, none, 0, 0⟩).setV 0x5 7)) (fun s => s.pc) = some 0x202 ∧
    faultOf (step ((startWith 0xE5A1 ⟨0x0080, none, 0, 0⟩).setV 0x5 0x17)) =
      some (.invalidKeyIndex 0x17 0x200) := by decide

/-- E20 -/
theorem test_ldVxDT :
    seen (step ((start 0xF407).setDT 0x3C)) (fun s => (s.getV 0x4, s.dt)) = some (0x3C, 0x3C) := by decide

/-- E21, P6: two ticks follow the step -/
theorem test_ldDTVx :
    seen (step ((startWith 0xF415 ⟨0, none, 0, 2⟩).setV 0x4 0x3C)) (fun s => s.dt) = some 58 := by decide

/-- E22 -/
theorem test_ldSTVx :
    seen (step ((start 0xF018).setV 0x0 5)) (fun s => s.st) = some 5 := by decide

/-- E24 -/
theorem test_ldKey_issues :
    seen (step (startWith 0xF30A ⟨0, some 9, 0, 0⟩)) (fun s => (s.run, s.pc, s.getV 0x3)) =
      some (.awaitingKey 0x3, 0x200, 0) ∧
    resultOf (step (startWith 0xF30A ⟨0, some 9, 0, 0⟩)) = some .waiting := by decide

/-- E25, E27 -/
theorem test_await :
    seen (step ((startWith 0 ⟨0xFFFF, none, 0, 0⟩).setRun (.awaitingKey 0x3)))
      (fun s => (s.run, s.pc)) = some (.awaitingKey 0x3, 0x200) ∧
    seen (step (((startWith 0 ⟨0, some 1, 0, 0⟩).setRun (.awaitingKey 0xF)).setPc 0xFFF))
      (fun s => (s.run, s.pc, s.getV 0xF)) = some (.running, 0x1001, 1) := by decide

/-- E23 -/
theorem test_tick :
    ((State.reset.setDT 2).setST 1).tick.dt = 1 ∧ ((State.reset.setDT 2).setST 1).tick.tick.st = 0 := by decide

/-! ## Decode faults, reset, load (sections 2.5, 2.6) -/

/-- X1 -/
theorem test_decode_fault :
    faultOf (step (start 0x8008)) = some (.decodeError 0x8008 0x200) ∧
    (faultOf (step (start 0x8008))).map Fault.code = some 1 := by decide

/-- Z2, first step: the free inputs decide nothing here -/
theorem test_reset_then_nop :
    seen (step State.reset) (fun s => s.pc) = some 0x202 := by decide

/-- Z6 -/
theorem test_load_program :
    seen (State.reset.loadProgram [0x12, 0x00]) (fun s => (s.readMem 0x200, s.readMem 0x201, s.endedNormally)) =
      some (0x12, 0, true) := by decide

/-- Z1 -/
theorem test_driver_reset :
    ((start 0x1200).setRun (.awaitingKey 3)).driverReset.run = .running ∧
    ((start 0x1200).setRun (.awaitingKey 3)).driverReset.readMem 0x200 = 0 := by decide

/-- R257: a move's step leaves no decided input behind -/
theorem test_move_step :
    seen (State.reset.move (.step 0 none 0)) (fun s => s.inputs) = some [] := by decide

/-! ## Witnesses: states and operands that meet the hypotheses of each obligation -/

theorem witness_DecodeOfEncode : (Instr.sys 0x0EF).wellFormed = true := by decide

theorem witness_EncodeOfDecode : decode 0x8AB6 = .ok (.shr 0xA 0xB) := by decide

theorem witness_StepRunsDecodedInstruction :
    ((start 0x2400).run = .running ∧ (start 0x2400).pc.toNat ≤ 0xFFE ∧
      decode (wordOfBytes ((start 0x2400).readMem 0x200) ((start 0x2400).readMem 0x201)) =
        .ok (.call 0x400)) ∧
    (seen (exec (.call 0x400) (start 0x2400)) (fun s => s.pc)).isSome = true ∧
    (faultOf (exec (.call 0x400) ((start 0x2400).setStack State.reset.stack 16))).isSome = true := by
  decide

theorem witness_FetchPastMemoryFaults :
    0xFFE < ((start 0).setPc 0xFFF).pc.toNat ∧ 0xFFE < ((start 0).setPc 0x1000).pc.toNat ∧
    ((start 0).setPc 0xFFF).run = .running := by decide

theorem witness_IllegalWordFaults :
    (start 0x5011).run = .running ∧ (start 0x5011).pc.toNat ≤ 0xFFE ∧
    decode (wordOfBytes ((start 0x5011).readMem 0x200) ((start 0x5011).readMem 0x201)) =
      .error (.family5 0x5011) := by decide

theorem witness_AwaitingStepTakesKey :
    ((startWith 0 ⟨0, some 0xF, 0, 0⟩).setRun (.awaitingKey 0xF)).run = .awaitingKey 0xF ∧
    ((startWith 0 ⟨0, some 0xF, 0, 0⟩).setRun (.awaitingKey 0xF)).input.keyPress = some 0xF ∧
    ((start 0).setRun (.awaitingKey 0)).input.keyPress = none := by decide

theorem witness_FaultsIndependentOfInputs :
    faultOf (step (startWith 0xE09E ⟨0, none, 0, 0⟩ |>.setV 0 0x10)) =
      some (.invalidKeyIndex 0x10 0x200) := by decide

theorem witness_InputsReadOnlyWhereNamed :
    ((startWith 0xC0FF ⟨1, none, 5, 0⟩).setInputs [⟨2, some 3, 5, 9⟩] 7).input.rnd =
      (startWith 0xC0FF ⟨1, none, 5, 0⟩).input.rnd ∧
    ((startWith 0xE09E ⟨1, none, 5, 0⟩).setInputs [⟨1, some 3, 6, 9⟩] 7).input.keyDown =
      (startWith 0xE09E ⟨1, none, 5, 0⟩).input.keyDown := by decide

theorem witness_MoveAndLogic : ∀ (x y : Nibble) (s : State),
    (Instr.ldReg x y = .ldReg x y ∧ s.getV y = s.getV y) ∧
    (Instr.orReg x y = .orReg x y ∧ s.getV x ||| s.getV y = s.getV x ||| s.getV y) ∧
    (Instr.andReg x y = .andReg x y ∧ s.getV x &&& s.getV y = s.getV x &&& s.getV y) ∧
    (Instr.xorReg x y = .xorReg x y ∧ s.getV x ^^^ s.getV y = s.getV x ^^^ s.getV y) :=
  fun _ _ _ => ⟨⟨rfl, rfl⟩, ⟨rfl, rfl⟩, ⟨rfl, rfl⟩, rfl, rfl⟩

/-- The flag clauses of the arithmetic statements: a destination that is not VF. -/
theorem witness_flag_clauses : (0xE : Nibble) ≠ 0xF ∧
    (Instr.sub 0xE 0xF = .sub 0xE 0xF ∧ State.reset.getV 0xE = State.reset.getV 0xE ∧
      State.reset.getV 0xF = State.reset.getV 0xF) ∧
    (Instr.subn 0xE 0xF = .subn 0xE 0xF ∧ State.reset.getV 0xF = State.reset.getV 0xF ∧
      State.reset.getV 0xE = State.reset.getV 0xE) := by decide

theorem witness_SystemCallIsNoOp :
    (0x00E1 : Word).toNat / 4096 = 0 ∧ (0x00E1 : Word) ≠ 0x00E0 ∧ (0x00E1 : Word) ≠ 0x00EE := by
  decide

theorem witness_CallPushesOrOverflows :
    (State.reset.setStack State.reset.stack 16).sp = 15 ∧
    (State.reset.setStack State.reset.stack 15).sp < 15 ∧ State.reset.sp < 15 := by decide

theorem witness_ReturnPopsOrUnderflows :
    State.reset.sp = -1 ∧
    (State.reset.setStack State.reset.stack 1).sp = (((0 : Fin 16).val : Nat) : Int) ∧
    (State.reset.setStack State.reset.stack 16).sp = (((15 : Fin 16).val : Nat) : Int) := by decide

/-- A call to 0xFFE, the last address an instruction can stand at, where a return stands. -/
theorem witness_CallThenReturn :
    (poke (start 0x2FFE) 0xFFE [0x00, 0xEE]).run = .running ∧
    (poke (start 0x2FFE) 0xFFE [0x00, 0xEE]).pc.toNat ≤ 0xFFE ∧ (0xFFE : Addr).toNat ≤ 0xFFE ∧
    decode (wordOfBytes ((poke (start 0x2FFE) 0xFFE [0x00, 0xEE]).readMem 0x200)
      ((poke (start 0x2FFE) 0xFFE [0x00, 0xEE]).readMem 0x201)) = .ok (.call 0xFFE) ∧
    wordOfBytes ((poke (start 0x2FFE) 0xFFE [0x00, 0xEE]).readMem 0xFFE)
      ((poke (start 0x2FFE) 0xFFE [0x00, 0xEE]).readMem 0xFFF) = 0x00EE ∧
    (poke (start 0x2FFE) 0xFFE [0x00, 0xEE]).sp < 15 := by decide

theorem witness_CompareSkips :
    (Instr.seImm 1 0 = .seImm 1 0 ∧ (True ↔ State.reset.getV 1 = 0)) ∧
    (Instr.sneImm 1 0 = .sneImm 1 0 ∧ (False ↔ State.reset.getV 1 ≠ 0)) ∧
    (Instr.seReg 1 2 = .seReg 1 2 ∧ (True ↔ State.reset.getV 1 = State.reset.getV 2)) ∧
    (Instr.sneReg 1 2 = .sneReg 1 2 ∧ (False ↔ State.reset.getV 1 ≠ State.reset.getV 2)) := by
  decide

theorem witness_FontGlyphAddress :
    ((State.reset.setV 1 15).getV 1).toNat ≤ 15 ∧ 15 < ((State.reset.setV 1 16).getV 1).toNat := by
  decide

theorem witness_BcdStoresDigits :
    (0x200 ≤ (State.reset.setI 0x200).i.toNat ∧ (State.reset.setI 0x200).i.toNat + 2 ≤ 0xFFF) ∧
    (0x200 ≤ (State.reset.setI 0xFFD).i.toNat ∧ (State.reset.setI 0xFFD).i.toNat + 2 ≤ 0xFFF) := by
  decide

/-- For Fx55 and for the pair Fx55, Fx65: the lowest I and the highest range. -/
theorem witness_StoreRegisters :
    (0x200 ≤ (State.reset.setI 0x200).i.toNat ∧
      (State.reset.setI 0x200).i.toNat + (0xF : Nibble).toNat ≤ 0xFFF) ∧
    (0x200 ≤ (State.reset.setI 0xFF0).i.toNat ∧
      (State.reset.setI 0xFF0).i.toNat + (0xF : Nibble).toNat ≤ 0xFFF) := by decide

theorem witness_StoreOutOfRangeFaults :
    (Instr.bcd 0 = .bcd 0 ∧ (3 : Nat) = 3 ∧ 0xFFF < (State.reset.setI 0xFFE).i.toNat + (3 - 1)) ∧
    (Instr.store 1 = .store 1 ∧ (2 : Nat) = (1 : Nibble).toNat + 1 ∧
      0xFFF < (State.reset.setI 0xFFF).i.toNat + (2 - 1)) ∧
    (State.reset.setI 0x1FF).i.toNat < 0x200 := by decide

theorem witness_LoadRegisters :
    (State.reset.setI 0xFF0).i.toNat + (0xF : Nibble).toNat ≤ 0xFFF ∧
    0xFFF < (State.reset.setI 0xFF1).i.toNat + (0xF : Nibble).toNat := by decide

/-- For the statements about completed steps: a step that stores, with its byte in place. -/
theorem witness_ReservedAreaNeverWritten :
    seen (step (((start 0xF055).setI 0x200).setV 0 0xAB)) (fun t => (t.readMem 0x200, t.readMem 0x1FF)) =
      some (0xAB, 0) := by decide

theorem witness_Draw :
    (State.reset.setI 0xFF1).i.toNat + (0xF : Nibble).toNat ≤ 0x1000 ∧
    0x1000 < (State.reset.setI 0xFF2).i.toNat + (0xF : Nibble).toNat ∧ (0xF : Nibble) ≠ 0 ∧
    (0 : Nibble) ≠ 0xF ∧ (1 : Nibble) ≠ 0xF := by decide

theorem witness_KeySkips :
    ((State.reset.setV 5 15).getV 5).toNat ≤ 15 ∧ 15 < ((State.reset.setV 5 16).getV 5).toNat := by
  decide

/-- Fx0A at the last address, with three inputs: an event that is dropped, none, event 0xB. -/
theorem witness_KeyWaitCompletes :
    let s := (poke (State.reset.setPc 0xFFE) 0xFFE [0xF1, 0x0A]).setInputs
      [⟨0, some 5, 0, 1⟩, ⟨0, none, 0, 0⟩, ⟨0, some 0xB, 0, 1⟩] 0
    s.run = .running ∧ s.pc.toNat ≤ 0xFFE ∧
    s.inputs = [⟨0, some 5, 0, 1⟩, ⟨0, none, 0, 0⟩, ⟨0, some 0xB, 0, 1⟩] ∧
    decode (wordOfBytes (s.readMem s.pc.toNat) (s.readMem (s.pc.toNat + 1))) = .ok (.ldKey 1) := by
  decide

theorem witness_LoadProgramPlacesBytes :
    (List.replicate 3584 (0 : Byte)).length ≤ 3584 ∧ 3584 < (List.replicate 3585 (0 : Byte)).length ∧
    (1 : Nat) < [(0x12 : Byte), 0x00].length := by
  refine ⟨?_, ?_, by decide⟩
  · rw [List.length_replicate]
  · rw [List.length_replicate]; decide

theorem witness_SelfJumpChangesNothing : (start 0x1200).endedNormally = true := by decide

/-- For the rules of the whole machine: a completed instruction of each excluded and included kind. -/
theorem witness_completed :
    (seen (exec (.load 2) (start 0)) (fun t => t.pc)) = some 0x202 ∧
    mayWriteV 3 (.load 2) = false ∧ mayWriteV 2 (.load 2) = true ∧
    pcRule (.load 2) = .byTwo ∧ pcRule (.skp 0) = .skip ∧ pcRule (.ldKey 0) = .stay ∧
    (seen (exec (.skp 0) (start 0)) (fun t => t.pc)) = some 0x202 ∧
    (seen (exec (.ldKey 0) (start 0)) (fun t => t.pc)) = some 0x200 ∧
    (seen (exec (.call 0x300) (start 0)) (fun t => t.sp)) = some 0 ∧
    (seen (exec .ret ((start 0).setStack State.reset.stack 1)) (fun t => t.sp)) = some (-1) := by
  decide

/-- A state that meets the invariant while it waits, and completes a step. -/
theorem witness_StepKeepsInvariant :
    (((start 0xF30A).setRun (.awaitingKey 3))).Inv ∧
    seen (step ((start 0xF30A).setRun (.awaitingKey 3))) (fun t => t.run) =
      some (.awaitingKey 3) := by
  refine ⟨⟨by decide, ?_, ?_⟩, by decide⟩
  · intro a ha
    have h0 : ¬a = 512 := by simp only [Config.loadOrigin] at ha; omega
    have h1 : ¬a = 513 := by simp only [Config.loadOrigin] at ha; omega
    have e : ((start 0xF30A).setRun (.awaitingKey 3)).mem = [(512, 0xF3), (513, 0x0A)] := by decide
    unfold State.readMem
    rw [e]
    simp only [Memory.read, h0, h1, if_false]
  · intro kx h
    cases h
    decide

theorem witness_ReachableStatesMeetInvariant : Reachable State.reset.tick := .tick .boot

end Sys2Proof.Tests
end

section
/-! PROOFS. The family of 40_arithmetic_flag.md whose instructions write V[x], no flag, and advance pc. -/

namespace Sys2Proof.Machine

/-! ## Frames: they compose, and each update's frame is stated once -/

theorem Piece.same_trans {s t u : State} (p : Piece) (hst : p.same s t) (htu : p.same t u) :
    p.same s u := by
  cases p with
  | v | stack | mem => exact fun a => (htu a).trans (hst a)
  | fb => exact fun cx cy => (htu cx cy).trans (hst cx cy)
  | inputs => exact ⟨htu.1.trans hst.1, htu.2.trans hst.2⟩
  | i | pc | depth | dt | st | run => exact Eq.trans htu hst

theorem Frame.trans {xs ys : List Piece} {s t u : State} (hst : Frame xs s t)
    (htu : Frame ys t u) : Frame (xs ++ ys) s u := by
  intro p hp
  obtain ⟨hxs, hys⟩ := not_or.mp (mt List.mem_append.mpr hp)
  exact p.same_trans (hst p hxs) (htu p hys)

theorem State.setV_frame (s : State) (x : Nibble) (b : Byte) : Frame [.v] s (s.setV x b) := by
  intro p hp
  cases p with
  | v => exact absurd (List.mem_singleton_self _) hp
  | i | pc | stack | depth | dt | st | run | mem | fb | inputs => simp [Piece.same]

theorem State.setPc_frame (s : State) (w : Word) : Frame [.pc] s (s.setPc w) := by
  intro p hp
  cases p with
  | pc => exact absurd (List.mem_singleton_self _) hp
  | v | i | stack | depth | dt | st | run | mem | fb | inputs => simp [Piece.same]

theorem State.advance_frame (s : State) : Frame [.pc] s s.advance := s.setPc_frame (s.pc + 2)

theorem State.setV_sameRegsBut (s : State) (x : Nibble) (b : Byte) :
    SameRegsBut [x] s (s.setV x b) := fun _ hj =>
  s.getV_setV_ne b (mt List.mem_singleton.mpr hj)

/-- The one effect the instructions of this family share: V[x] gets b, pc advances (R26). -/
theorem State.setV_advance_effect (s : State) (x : Nibble) (b : Byte) :
    (s.setV x b).advance.getV x = b ∧ SameRegsBut [x] s (s.setV x b).advance ∧
      (s.setV x b).advance.pc = s.pc + 2 ∧ Frame [.v, .pc] s (s.setV x b).advance :=
  ⟨s.getV_setV_same x b, s.setV_sameRegsBut x b, rfl,
    (s.setV_frame x b).trans (s.setV x b).advance_frame⟩

/-! ## What each instruction of the family answers -/

section
variable (s : State) (x y : Nibble) (kk : Byte)

theorem exec_ldImm : exec (.ldImm x kk) s = .next (s.setV x kk).advance := rfl

theorem exec_addImm : exec (.addImm x kk) s = .next (s.setV x (s.getV x + kk)).advance := rfl

theorem exec_ldReg : exec (.ldReg x y) s = .next (s.setV x (s.getV y)).advance := rfl

theorem exec_orReg : exec (.orReg x y) s = .next (s.setV x (s.getV x ||| s.getV y)).advance := rfl

theorem exec_andReg : exec (.andReg x y) s = .next (s.setV x (s.getV x &&& s.getV y)).advance := rfl

theorem exec_xorReg : exec (.xorReg x y) s = .next (s.setV x (s.getV x ^^^ s.getV y)).advance := rfl

theorem exec_rnd : exec (.rnd x kk) s = .next (s.setV x (s.input.rnd &&& kk)).advance := rfl

end

/-! ## The obligations -/

/-- Settles O13: 6xkk is the shared effect with b = kk. -/
theorem loadImmediate : Obligations.LoadImmediate := fun s x kk =>
  ⟨_, exec_ldImm s x kk, s.setV_advance_effect x kk⟩

/-- 7xkk: the shared effect, its byte read as a sum modulo 256 (R124). -/
theorem exec_addImm_effect (s : State) (x : Nibble) (kk : Byte) :
    ∃ t, exec (.addImm x kk) s = .next t ∧
      (t.getV x).toNat = ((s.getV x).toNat + kk.toNat) % 256 ∧ SameRegsBut [x] s t ∧
      t.pc = s.pc + 2 ∧ Frame [.v, .pc] s t := by
  obtain ⟨hx, hrest⟩ := s.setV_advance_effect x (s.getV x + kk)
  refine ⟨_, exec_addImm s x kk, ?_, hrest⟩
  rw [hx]
  exact BitVec.toNat_add (s.getV x) kk

/-- Settles O14: the second clause chains the effect of 6xkk with that of 7xkk2; for x other than 15 both
leave VF, as they leave every register but V[x]. -/
theorem addImmediate : Obligations.AddImmediate := by
  refine ⟨exec_addImm_effect, fun s x kk kk2 => ?_⟩
  obtain ⟨t, ht, htx, htRegs, -⟩ := loadImmediate s x kk
  obtain ⟨u, hu, hux, huRegs, -⟩ := exec_addImm_effect t x kk2
  refine ⟨t, u, ht, hu, htx ▸ hux, fun hx => ?_⟩
  have hVF : (0xF : Nibble) ∉ [x] := mt List.mem_singleton.mp hx.symm
  exact (huRegs _ hVF).trans (htRegs _ hVF)

/-- Settles O15: each of the four is the shared effect with its own byte. -/
theorem moveAndLogic : Obligations.MoveAndLogic := by
  rintro s x y i r (⟨rfl, rfl⟩ | ⟨rfl, rfl⟩ | ⟨rfl, rfl⟩ | ⟨rfl, rfl⟩)
  · exact ⟨_, exec_ldReg s x y, s.setV_advance_effect x _⟩
  · exact ⟨_, exec_orReg s x y, s.setV_advance_effect x _⟩
  · exact ⟨_, exec_andReg s x y, s.setV_advance_effect x _⟩
  · exact ⟨_, exec_xorReg s x y, s.setV_advance_effect x _⟩

/-- Settles O19: whatever the random byte is, masking it by kk leaves no bit for the complement of kk. -/
theorem randomAnd : Obligations.RandomAnd := by
  intro s x kk
  obtain ⟨hx, hrest⟩ := s.setV_advance_effect x (s.input.rnd &&& kk)
  have hmask : s.input.rnd &&& kk &&& ~~~kk = 0 := by
    rw [BitVec.and_assoc, BitVec.and_not_self]
    exact BitVec.and_zero
  exact ⟨_, exec_rnd s x kk, hx, (congrArg (· &&& ~~~kk) hx).trans hmask, hrest⟩

end Sys2Proof.Machine
end

section
/-! PROOFS. The family of 41_control_flow.md: the instructions that set pc, and the call stack. -/

namespace Sys2Proof

/-! ## Words with first nibble 0 (R93, R97) -/

theorem decode_of_op_zero {w : Word} (h : (Word.op w).toNat = 0) : decode w = .ok (decode0 w) := by
  simp only [decode, h]

theorem decode0_of_ne {w : Word} (hcls : w ≠ 0x00E0) (hret : w ≠ 0x00EE) :
    decode0 w = .sys (Word.nnn w) := by
  rw [decode0, if_neg hcls, if_neg hret]

theorem Word.nnn_eq_setWidth (w : Word) : Word.nnn w = w.setWidth 12 :=
  (BitVec.setWidth_eq_extractLsb' (by decide)).symm

end Sys2Proof

namespace Sys2Proof.Machine

/-! ## The call stack: frames, and the effect of a push and of a pop (R31) -/

theorem State.setStack_frame (s : State) (k : Vector Word 16) (d : Fin 17) :
    Frame [.stack, .depth] s (s.setStack k d) := by
  intro p hp
  cases p with
  | stack | depth => exact absurd (by decide) hp
  | v | i | pc | dt | st | run | mem | fb | inputs => simp [Piece.same]

/-- Only the depth moves when the slots are written back as they are. -/
theorem State.setStack_self_frame (s : State) (d : Fin 17) :
    Frame [.depth] s (s.setStack s.stack d) := by
  intro p hp
  cases p with
  | depth => exact absurd (by decide) hp
  | stack => exact fun _ => rfl
  | v | i | pc | dt | st | run | mem | fb | inputs =>
    exact s.setStack_frame s.stack d _ (by decide)

/-- The number of frames in use is sp + 1 (R30). -/
theorem State.depth_eq_sp_add_one (s : State) : (s.depth.val : Int) = s.sp + 1 :=
  (Int.sub_add_cancel _ 1).symm

theorem State.push_effect {s : State} (w : Word) (h : s.sp < 15) :
    ∃ t, s.push w = .ok t ∧ t.sp = s.sp + 1 ∧
      (∀ j : Fin 16, t.stack[j] = if (j.val : Int) = t.sp then w else s.stack[j]) ∧
      Frame [.stack, .depth] s t := by
  have hdepth := s.depth_eq_sp_add_one
  have hroom : s.depth.val < 16 := by omega
  have hsp : (s.setStack (s.stack.set s.depth.val w) ⟨s.depth.val + 1, by omega⟩).sp =
      s.depth.val := by simp [State.sp]
  refine ⟨_, State.push_room w hroom, hsp.trans hdepth, fun j => ?_, s.setStack_frame _ _⟩
  rw [hsp]
  simp [Vector.getElem_set, eq_comm]

theorem State.pop_effect {s : State} {j : Fin 16} (h : s.sp = j.val) :
    ∃ t, s.pop = .ok (s.stack[j], t) ∧ t.sp = s.sp - 1 ∧ Frame [.depth] s t := by
  have hdepth := s.depth_eq_sp_add_one
  have htop : s.depth.val - 1 = j.val := by omega
  have hpos : 0 < s.depth.val := by omega
  refine ⟨s.setStack s.stack ⟨s.depth.val - 1, by omega⟩, ?_, ?_, s.setStack_self_frame _⟩
  · rw [State.pop_some hpos]
    simp [htop]
  · simp only [State.sp, State.setStack_depth]
    omega

/-! ## Targets and skips (R150, R153, R159) -/

@[simp] theorem targetOf_toNat (nnn : Addr) : (targetOf nnn).toNat = nnn.toNat :=
  BitVec.toNat_setWidth_of_le (by decide)

/-- At 16 bits the sum of a 12-bit and an 8-bit number is exact. -/
theorem State.targetV0_toNat (s : State) (nnn : Addr) :
    (s.targetV0 nnn).toNat = nnn.toNat + (s.getV 0).toNat := by
  have := nnn.isLt
  have := (s.getV 0).isLt
  simp only [State.targetV0, BitVec.toNat_add, BitVec.toNat_setWidth]
  omega

/-- The one effect the four skips share, for a condition c that the Boolean b decides (R26). -/
theorem State.skipIf_effect (s : State) {c : Prop} {b : Bool} (h : c ↔ b = true) :
    (c → (s.skipIf b).pc = s.pc + 4) ∧ (¬c → (s.skipIf b).pc = s.pc + 2) ∧
      Frame [.pc] s (s.skipIf b) := by
  refine ⟨fun hc => ?_, fun hc => ?_, s.setPc_frame _⟩
  · rw [h.mp hc, State.skipIf_pc, if_pos rfl]
  · rw [State.skipIf_pc, if_neg (mt h.mpr hc)]

/-! ## What each instruction of the family answers -/

section
variable (s : State) (x y : Nibble) (kk : Byte) (nnn : Addr)

theorem exec_sys : exec (.sys nnn) s = .next s.advance := rfl

theorem exec_jp : exec (.jp nnn) s = .next (s.setPc (targetOf nnn)) := rfl

theorem exec_jpV0 : exec (.jpV0 nnn) s = .next (s.setPc (s.targetV0 nnn)) := rfl

theorem exec_seImm : exec (.seImm x kk) s = .next (s.skipIf (s.getV x == kk)) := rfl

theorem exec_sneImm : exec (.sneImm x kk) s = .next (s.skipIf (s.getV x != kk)) := rfl

theorem exec_seReg : exec (.seReg x y) s = .next (s.skipIf (s.getV x == s.getV y)) := rfl

theorem exec_sneReg : exec (.sneReg x y) s = .next (s.skipIf (s.getV x != s.getV y)) := rfl

end

section
variable {s t : State} {f : Fault} {w : Word}

theorem exec_call_of_push (nnn : Addr) (h : s.push s.pc = .ok t) :
    exec (.call nnn) s = .next (t.setPc (targetOf nnn)) := by
  simp only [exec, execCall, h]

theorem exec_call_of_push_error (nnn : Addr) (h : s.push s.pc = .error f) :
    exec (.call nnn) s = .fault f := by
  simp only [exec, execCall, h, raise]

theorem exec_ret_of_pop (h : s.pop = .ok (w, t)) : exec .ret s = .next (t.setPc (w + 2)) := by
  simp only [exec, execRet, h]

theorem exec_ret_of_pop_error (h : s.pop = .error f) : exec .ret s = .fault f := by
  simp only [exec, execRet, h, raise]

end

/-! ## The obligations -/

/-- Settles O20: the first nibble selects `decode0`, whose two other words are excluded. -/
theorem systemCallIsNoOp : Obligations.SystemCallIsNoOp := by
  refine ⟨fun w hop hcls hret => ?_, fun s nnn => ⟨_, exec_sys s nnn, rfl, s.advance_frame⟩⟩
  rw [decode_of_op_zero ((Word.op_toNat w).trans hop), decode0_of_ne hcls hret,
    Word.nnn_eq_setWidth]

/-- Settles O21: both are one write of pc, of a target whose number is exact. -/
theorem jumpTargets : Obligations.JumpTargets :=
  ⟨fun s nnn => ⟨_, exec_jp s nnn, targetOf_toNat nnn, s.setPc_frame _⟩,
    fun s nnn => ⟨_, exec_jpV0 s nnn, s.targetV0_toNat nnn, s.setPc_frame _⟩⟩

/-- Settles O22: the push decides; with room its effect is followed by a write of pc. -/
theorem callPushesOrOverflows : Obligations.CallPushesOrOverflows := by
  refine fun s nnn => ⟨fun hfull => ?_, fun hroom => ?_⟩
  · have hdepth := s.depth_eq_sp_add_one
    exact exec_call_of_push_error nnn (State.push_full s.pc (by omega))
  · obtain ⟨t, hpush, hsp, hslots, hframe⟩ := State.push_effect s.pc hroom
    exact ⟨_, exec_call_of_push nnn hpush, hsp, hslots, targetOf_toNat nnn,
      hframe.trans (t.setPc_frame _)⟩

/-- Settles O23: the pop decides; with a frame in use its effect is followed by a write of pc. -/
theorem returnPopsOrUnderflows : Obligations.ReturnPopsOrUnderflows := by
  refine fun s => ⟨fun hempty => ?_, fun j hj => ?_⟩
  · have hdepth := s.depth_eq_sp_add_one
    exact exec_ret_of_pop_error (State.pop_empty (by omega))
  · obtain ⟨t, hpop, hsp, hframe⟩ := State.pop_effect hj
    exact ⟨_, exec_ret_of_pop hpop, hsp, rfl, hframe.trans (t.setPc_frame _)⟩

/-- Settles O25: each of the four is the shared effect, its Boolean deciding its own comparison. -/
theorem compareSkips : Obligations.CompareSkips := by
  rintro s x y kk i c (⟨rfl, hc⟩ | ⟨rfl, hc⟩ | ⟨rfl, hc⟩ | ⟨rfl, hc⟩)
  · exact ⟨_, exec_seImm s x kk, s.skipIf_effect (hc.trans beq_iff_eq.symm)⟩
  · exact ⟨_, exec_sneImm s x kk, s.skipIf_effect (hc.trans bne_iff_ne.symm)⟩
  · exact ⟨_, exec_seReg s x y, s.skipIf_effect (hc.trans beq_iff_eq.symm)⟩
  · exact ⟨_, exec_sneReg s x y, s.skipIf_effect (hc.trans bne_iff_ne.symm)⟩

end Sys2Proof.Machine
end

section
/-! PROOFS. The family of 42_memory_block_bcd.md: the writes of I, and the load of a register block. -/

namespace Sys2Proof.Machine

/-! ## Frames and effects of the two updates (R23, R176) -/

theorem State.setI_frame (s : State) (a : Addr) : Frame [.i] s (s.setI a) := by
  intro p hp
  cases p with
  | i => exact absurd (List.mem_singleton_self _) hp
  | v | pc | stack | depth | dt | st | run | mem | fb | inputs => simp [Piece.same]

theorem State.setRegs_frame (s : State) (v : Vector Byte 16) : Frame [.v] s (s.setRegs v) := by
  intro p hp
  cases p with
  | v => exact absurd (List.mem_singleton_self _) hp
  | i | pc | stack | depth | dt | st | run | mem | fb | inputs => simp [Piece.same]

/-- What every write of I followed by the normal advance leaves: VF, too, is as before (R172). -/
theorem State.setI_advance_frame (s : State) (a : Addr) :
    Frame [.i, .pc] s (s.setI a).advance :=
  (s.setI_frame a).trans (s.setI a).advance_frame

/-- A byte fits 12 bits, so only the sum is reduced (R172). -/
theorem State.indexSum_toNat (s : State) (x : Nibble) :
    (s.indexSum x).toNat = (s.i.toNat + (s.getV x).toNat) % 4096 := by
  rw [State.indexSum, BitVec.toNat_add, BitVec.toNat_setWidth_of_le (by decide)]

/-- The registers up to V[x] are those with an index below x + 1. -/
theorem State.loadRegs_upTo_getV (s : State) (x j : Nibble) :
    (s.setRegs (s.loadRegs (x.toNat + 1))).getV j =
      if j.toNat ≤ x.toNat then s.readMem (s.i.toNat + j.toNat) else s.getV j := by
  simp only [State.loadRegs_getV, Nat.lt_succ_iff]

/-! ## What each instruction of the family answers -/

section
variable (s : State) (x : Nibble) (nnn : Addr)

theorem exec_ldI : exec (.ldI nnn) s = .next (s.setI nnn).advance := rfl

theorem exec_addI : exec (.addI x) s = .next (s.setI (s.indexSum x)).advance := rfl

end

section
variable {s : State} {x : Nibble} {f : Fault}

theorem exec_load_of_loadFault_none (h : s.loadFault (x.toNat + 1) = none) :
    exec (.load x) s = .next (s.setRegs (s.loadRegs (x.toNat + 1))).advance := by
  simp only [exec, execLoad, h]

theorem exec_load_of_loadFault_some (h : s.loadFault (x.toNat + 1) = some f) :
    exec (.load x) s = .fault f := by
  simp only [exec, execLoad, h, raise]

end

/-! ## The obligations -/

/-- Settles O31: the range check decides; in range the register block is written and pc advances. -/
theorem loadRegisters : Obligations.LoadRegisters := by
  refine fun s x => ⟨fun hin => ?_, fun hpast => ?_⟩
  · have hcheck : s.loadFault (x.toNat + 1) = none :=
      (s.loadFault_none_iff _).mpr (.inr (by omega))
    exact ⟨_, exec_load_of_loadFault_none hcheck, s.loadRegs_upTo_getV x, rfl,
      (s.setRegs_frame _).trans (s.setRegs _).advance_frame⟩
  · exact exec_load_of_loadFault_some (State.loadFault_of_past (Nat.succ_pos _) (by omega))

/-- Settles O26: both are one write of I, of nnn itself and of the sum modulo 4096. -/
theorem addressRegister : Obligations.AddressRegister :=
  ⟨fun s nnn => ⟨_, exec_ldI s nnn, rfl, rfl, s.setI_advance_frame nnn⟩,
    fun s x => ⟨_, exec_addI s x, s.indexSum_toNat x, rfl, s.setI_advance_frame _⟩⟩

end Sys2Proof.Machine
end

section
/-! PROOFS. The family of 43_display_input_timer.md: clearing the screen, and the timer registers. -/

namespace Sys2Proof.Machine

/-! ## Frames and effects of the framebuffer and timer updates (R38, R32, R33) -/

theorem State.setFB_frame (s : State) (fb : Framebuffer) : Frame [.fb] s (s.setFB fb) := by
  intro p hp
  cases p with
  | fb => exact absurd (List.mem_singleton_self _) hp
  | v | i | pc | stack | depth | dt | st | run | mem | inputs => simp [Piece.same]

theorem State.setDT_frame (s : State) (b : Byte) : Frame [.dt] s (s.setDT b) := by
  intro p hp
  cases p with
  | dt => exact absurd (List.mem_singleton_self _) hp
  | v | i | pc | stack | depth | st | run | mem | fb | inputs => simp [Piece.same]

theorem State.setST_frame (s : State) (b : Byte) : Frame [.st] s (s.setST b) := by
  intro p hp
  cases p with
  | st => exact absurd (List.mem_singleton_self _) hp
  | v | i | pc | stack | depth | dt | run | mem | fb | inputs => simp [Piece.same]

@[simp] theorem State.setFB_view (s : State) (fb : Framebuffer) (cx : Fin 64) (cy : Fin 32) :
    (s.setFB fb).view cx cy = fbGet fb cx cy := rfl

theorem State.cleared_view (s : State) (cx : Fin 64) (cy : Fin 32) :
    (s.setFB fbBlank).advance.view cx cy = false := by
  rw [State.advance_view, State.setFB_view, fbGet_blank]

/-! ## What each instruction of the family answers -/

section
variable (s : State) (x : Nibble)

theorem exec_cls : exec .cls s = .next (s.setFB fbBlank).advance := rfl

theorem exec_ldVxDT : exec (.ldVxDT x) s = .next (s.setV x s.dt).advance := rfl

theorem exec_ldDTVx : exec (.ldDTVx x) s = .next (s.setDT (s.getV x)).advance := rfl

theorem exec_ldSTVx : exec (.ldSTVx x) s = .next (s.setST (s.getV x)).advance := rfl

end

/-! ## The obligations -/

/-- Settles O34: a cleared screen is blank whatever the state before, so two clears agree pixel by pixel. -/
theorem clearScreen : Obligations.ClearScreen := fun s =>
  ⟨_, _, exec_cls s, s.cleared_view, rfl,
    (s.setFB_frame fbBlank).trans (s.setFB fbBlank).advance_frame, exec_cls _,
    fun cx cy => (State.cleared_view _ cx cy).trans (s.cleared_view cx cy).symm⟩

/-- Settles O39: Fx07 is the shared write of V[x] with the byte DT; Fx15 and Fx18 each write one timer. -/
theorem timerRegisters : Obligations.TimerRegisters := fun s x =>
  ⟨⟨_, exec_ldVxDT s x, s.setV_advance_effect x s.dt⟩,
    ⟨_, exec_ldDTVx s x, rfl, rfl, (s.setDT_frame _).trans (s.setDT _).advance_frame⟩,
    ⟨_, exec_ldSTVx s x, rfl, rfl, (s.setST_frame _).trans (s.setST _).advance_frame⟩⟩

end Sys2Proof.Machine
end

section
/-! PROOFS. Encoding (30_encoding.md): decode and encode are inverse to each other, and the words that decode
to nothing. -/

namespace Sys2Proof

theorem Instr.wellFormed_sys_iff {nnn : Addr} :
    (Instr.sys nnn).wellFormed = true ↔ nnn ≠ 0x0E0 ∧ nnn ≠ 0x0EE := by
  simp [Instr.wellFormed]

/-! ## Decoding an encoded word (R93, R94) -/

/-- A word of format N with first nibble 0 is the system call, but for the two words of CLS and RET (R97). -/
theorem decode_packN_zero {nnn : Addr} (hcls : nnn ≠ 0x0E0) (hret : nnn ≠ 0x0EE) :
    decode (packN 0x0 nnn) = .ok (.sys nnn) := by
  have hop : (Word.op (packN 0x0 nnn)).toNat = 0 := by simp
  have hne (c : Addr) (hc : nnn ≠ c) : packN 0x0 nnn ≠ packN 0x0 c := fun e =>
    hc (by simpa using congrArg Word.nnn e)
  rw [decode_of_op_zero hop, decode0_of_ne (hne 0x0E0 hcls) (hne 0x0EE hret), nnn_packN]

/-- Settles O2: the fields of a packed word are those it was packed from, so the first nibble selects the
instruction's own arm of the decoder, and so do the fourth nibble in family 8 and the low byte in E and F. -/
theorem decodeOfEncode : Obligations.DecodeOfEncode := by
  intro i hwf
  cases i with
  | cls | ret => rfl
  | sys nnn =>
    obtain ⟨hcls, hret⟩ := Instr.wellFormed_sys_iff.mp hwf
    exact decode_packN_zero hcls hret
  | jp | call | ldI | jpV0 | seImm | sneImm | ldImm | addImm | rnd | seReg | sneReg | drw =>
    simp [encode, decode]
  | ldReg | orReg | andReg | xorReg | addReg | sub | shr | subn | shl =>
    simp [encode, decode, decode8]
  | skp | sknp => simp [encode, decode, decodeE]
  | ldVxDT | ldKey | ldDTVx | ldSTVx | addI | ldFont | bcd | store | load =>
    simp [encode, decode, decodeF]

/-! ## Encoding a decoded word -/

section
variable {w : Word} {i : Instr}

theorem encode_decode0 (hop : (Word.op w).toNat = 0) :
    (decode0 w).wellFormed = true ∧ encode (decode0 w) = w := by
  by_cases hcls : w = 0x00E0
  · subst hcls; decide
  by_cases hret : w = 0x00EE
  · subst hret; decide
  have hpack : packN 0x0 (Word.nnn w) = w := packN_fields w 0x0 hop
  rw [decode0_of_ne hcls hret]
  have hne (c : Addr) (hc : w ≠ packN 0x0 c) : Word.nnn w ≠ c := fun e => hc (e ▸ hpack.symm)
  exact ⟨Instr.wellFormed_sys_iff.mpr ⟨hne 0x0E0 hcls, hne 0x0EE hret⟩, hpack⟩

theorem encode_of_decode8 (hop : (Word.op w).toNat = 8) (h : decode8 w = .ok i) :
    i.wellFormed = true ∧ encode i = w := by
  unfold decode8 at h
  split at h
  case h_10 => cases h
  all_goals
    cases h
    exact ⟨rfl, packY_fields w 0x8 _ hop ‹_›⟩

theorem encode_of_decodeE (hop : (Word.op w).toNat = 0xE) (h : decodeE w = .ok i) :
    i.wellFormed = true ∧ encode i = w := by
  unfold decodeE at h
  split at h
  case h_3 => cases h
  all_goals
    cases h
    exact ⟨rfl, packK_fields w 0xE _ hop ‹_›⟩

theorem encode_of_decodeF (hop : (Word.op w).toNat = 0xF) (h : decodeF w = .ok i) :
    i.wellFormed = true ∧ encode i = w := by
  unfold decodeF at h
  split at h
  case h_10 => cases h
  all_goals
    cases h
    exact ⟨rfl, packK_fields w 0xF _ hop ‹_›⟩

end

/-- Settles O3: along the arms of the decoder, each arm's instruction packs the word's own fields, with the
nibble or byte the arm matched. -/
theorem encodeOfDecode : Obligations.EncodeOfDecode := by
  intro w i h
  unfold decode at h
  split at h
  case h_1 hop => cases h; exact encode_decode0 hop
  case h_2 hop | h_3 hop | h_11 hop | h_12 hop => cases h; exact ⟨rfl, packN_fields w _ hop⟩
  case h_4 hop | h_5 hop | h_7 hop | h_8 hop | h_13 hop =>
    cases h; exact ⟨rfl, packK_fields w _ _ hop rfl⟩
  case h_6 hop | h_10 hop =>
    split at h <;> cases h
    exact ⟨rfl, packY_fields w _ 0 hop (congrArg BitVec.toNat ‹_›)⟩
  case h_9 hop => exact encode_of_decode8 hop h
  case h_14 hop => cases h; exact ⟨rfl, packY_fields w _ _ hop rfl⟩
  case h_15 hop => exact encode_of_decodeE hop h
  case h_16 =>
    simp only [imp_false] at *
    have hlt := (Word.op w).isLt
    exact encode_of_decodeF (by omega) h

/-- Settles O1: each word is the encoding of its instruction, but for 8008, whose fourth nibble no arm of
family 8 matches. -/
theorem sampleWordsDecode : Obligations.SampleWordsDecode :=
  ⟨decodeOfEncode .cls rfl, decodeOfEncode (.call 0x20A) rfl, decodeOfEncode (.addImm 0x3 0x02) rfl,
    decodeOfEncode (.sub 0xA 0xB) rfl, decodeOfEncode (.ldI 0x300) rfl,
    decodeOfEncode (.drw 0x1 0x2 0x5) rfl, decodeOfEncode (.skp 0x5) rfl,
    decodeOfEncode (.load 0x1) rfl, rfl⟩

/-! ## The words no arm matches (R96) -/

section
variable (w : Word)

theorem decode8_error_iff :
    (∃ e, decode8 w = .error e) ↔ w.toNat % 16 ∈ [0x8, 0x9, 0xA, 0xB, 0xC, 0xD, 0xF] := by
  have hlt := (Word.n w).isLt
  rw [← Word.n_toNat]
  unfold decode8
  split
  case h_10 =>
    simp only [imp_false] at *
    simp
    omega
  all_goals simp [*]

theorem decodeE_error_iff : (∃ e, decodeE w = .error e) ↔ w.toNat % 256 ∉ [0x9E, 0xA1] := by
  rw [← Word.kk_toNat]
  unfold decodeE
  split <;> simp_all

theorem decodeF_error_iff :
    (∃ e, decodeF w = .error e) ↔
      w.toNat % 256 ∉ [0x07, 0x0A, 0x15, 0x18, 0x1E, 0x29, 0x33, 0x55, 0x65] := by
  rw [← Word.kk_toNat]
  unfold decodeF
  split <;> simp_all

end

/-- Settles O4: each arm of the decoder fixes the first nibble, and with it the one row of R96's table that
can hold of the word. -/
theorem illegalWordsExactly : Obligations.IllegalWordsExactly := by
  intro w
  rw [← Word.op_toNat, ← decode8_error_iff, ← decodeE_error_iff, ← decodeF_error_iff,
    ← Word.n_toNat]
  have hn : (Word.n w).toNat = 0 ↔ Word.n w = 0 := BitVec.toNat_inj (y := 0)
  unfold decode
  split
  case h_6 hop | h_10 hop => split <;> simp_all
  case h_16 =>
    simp only [imp_false] at *
    have hlt := (Word.op w).isLt
    have hop : (Word.op w).toNat = 0xF := by omega
    simp [hop]
  all_goals simp [*]

end Sys2Proof
end

section
/-! PROOFS. The rest of 40_arithmetic_flag.md: the instructions that write VF and then V[x] (R122). -/

namespace Sys2Proof.Machine

/-! ## The one effect they share (R122, D4) -/

theorem Frame.mono {xs ys : List Piece} {s t : State} (h : Frame xs s t) (hsub : xs ⊆ ys) :
    Frame ys s t := fun p hp => h p (mt (@hsub p) hp)

/-- V[x] gets b whatever x is; VF keeps the flag unless x names it. -/
theorem State.writeFlagged_effect (s : State) (f : Bool) (x : Nibble) (b : Byte) :
    (s.writeFlagged f x b).getV x = b ∧
      (x ≠ 0xF → (s.writeFlagged f x b).getV 0xF = flagByte f) ∧
      SameRegsBut [x, 0xF] s (s.writeFlagged f x b) ∧
      (s.writeFlagged f x b).pc = s.pc + 2 ∧ Frame [.v, .pc] s (s.writeFlagged f x b) := by
  have hframe := ((s.setV_frame flagReg (flagByte f)).trans
    ((s.setV flagReg (flagByte f)).setV_frame x b)).trans (State.advance_frame _)
  refine ⟨?_, fun hx => ?_, fun j hj => ?_, rfl, hframe.mono (by decide)⟩
  · rw [State.writeFlagged_getV, if_pos rfl]
  · rw [State.writeFlagged_getV, if_neg hx.symm, flagReg, if_pos rfl]
  · obtain ⟨hjx, hjF⟩ : j ≠ x ∧ j ≠ 0xF := by simpa using hj
    rw [State.writeFlagged_getV, if_neg hjx, flagReg, if_neg hjF]

/-! ## What each instruction of the family answers -/

section
variable (s : State) (x y : Nibble)

theorem exec_addReg : exec (.addReg x y) s =
    .next (s.writeFlagged (carryOut (s.getV x) (s.getV y)) x (s.getV x + s.getV y)) := rfl

theorem exec_sub : exec (.sub x y) s =
    .next (s.writeFlagged (strictlyAbove (s.getV x) (s.getV y)) x (s.getV x - s.getV y)) := rfl

theorem exec_subn : exec (.subn x y) s =
    .next (s.writeFlagged (strictlyAbove (s.getV y) (s.getV x)) x (s.getV y - s.getV x)) := rfl

theorem exec_shr : exec (.shr x y) s =
    .next (s.writeFlagged (lowBit (s.getV x)) x (s.getV x >>> 1)) := rfl

theorem exec_shl : exec (.shl x y) s =
    .next (s.writeFlagged (highBit (s.getV x)) x (s.getV x <<< 1)) := rfl

end

/-! ## Flag and result as numbers (R129 to R133) -/

section
variable (a b : Byte)

theorem flagByte_toNat (f : Bool) : (flagByte f).toNat = f.toNat := by
  cases f <;> rfl

/-- The carry and the sum modulo 256 are together the exact sum (R129). -/
theorem carryOut_add : 256 * (flagByte (carryOut a b)).toNat + (a + b).toNat = a.toNat + b.toNat := by
  have ha := a.isLt
  have hb := b.isLt
  rw [flagByte_toNat, carryOut, BitVec.toNat_add]
  by_cases h : a.toNat + b.toNat > 255
  · rw [decide_eq_true h, Bool.toNat_true]; omega
  · rw [decide_eq_false h, Bool.toNat_false]; omega

theorem sub_toNat_emod : ((a - b).toNat : Int) = ((a.toNat : Int) - b.toNat) % 256 := by
  have hb := b.isLt
  rw [BitVec.toNat_sub]
  omega

theorem flagByte_strictlyAbove :
    flagByte (strictlyAbove a b) = if b.toNat < a.toNat then 1 else 0 := by
  simp [flagByte, strictlyAbove]

theorem shiftRight_one_toNat : (a >>> 1).toNat = a.toNat / 2 := by
  rw [BitVec.toNat_ushiftRight, Nat.shiftRight_eq_div_pow, Nat.pow_one]

theorem shiftLeft_one_toNat : (a <<< 1).toNat = 2 * a.toNat % 256 := by
  rw [BitVec.toNat_shiftLeft, Nat.shiftLeft_eq, Nat.pow_one, Nat.mul_comm]

theorem lowBit_toNat : (flagByte (lowBit a)).toNat = a.toNat % 2 := by
  rw [flagByte_toNat, lowBit, BitVec.getLsbD, Nat.toNat_testBit, Nat.pow_zero, Nat.div_one]

theorem highBit_toNat : (flagByte (highBit a)).toNat = a.toNat / 128 := by
  have ha := a.isLt
  rw [flagByte_toNat, highBit, BitVec.getLsbD, Nat.toNat_testBit]
  omega

end

/-! ## The obligations -/

/-- Settles O16: the shared effect, with carry and sum read as one number. -/
theorem addWithCarry : Obligations.AddWithCarry := by
  intro s x y
  obtain ⟨hx, hF, hrest⟩ :=
    s.writeFlagged_effect (carryOut (s.getV x) (s.getV y)) x (s.getV x + s.getV y)
  refine ⟨_, exec_addReg s x y, ?_, fun hne => ?_, hrest⟩
  · rw [hx]; exact BitVec.toNat_add _ _
  · rw [hx, hF hne]; exact carryOut_add _ _

/-- Both subtractions: the shared effect, with b taken from a (R130, R132). -/
theorem State.writeFlagged_difference (s : State) (x : Nibble) (a b : Byte) :
    (((s.writeFlagged (strictlyAbove a b) x (a - b)).getV x).toNat : Int) =
        ((a.toNat : Int) - b.toNat) % 256 ∧
      (x ≠ 0xF → (s.writeFlagged (strictlyAbove a b) x (a - b)).getV 0xF =
        if b.toNat < a.toNat then 1 else 0) ∧
      SameRegsBut [x, 0xF] s (s.writeFlagged (strictlyAbove a b) x (a - b)) ∧
      (s.writeFlagged (strictlyAbove a b) x (a - b)).pc = s.pc + 2 ∧
      Frame [.v, .pc] s (s.writeFlagged (strictlyAbove a b) x (a - b)) := by
  obtain ⟨hx, hF, hrest⟩ := s.writeFlagged_effect (strictlyAbove a b) x (a - b)
  refine ⟨?_, fun hne => ?_, hrest⟩
  · rw [hx]; exact sub_toNat_emod a b
  · rw [hF hne]; exact flagByte_strictlyAbove a b

/-- Settles O17: the two instructions differ in which register is the minuend. -/
theorem subtractBothWays : Obligations.SubtractBothWays := by
  rintro s x y i a b (⟨rfl, rfl, rfl⟩ | ⟨rfl, rfl, rfl⟩)
  · exact ⟨_, exec_sub s x y, s.writeFlagged_difference x _ _⟩
  · exact ⟨_, exec_subn s x y, s.writeFlagged_difference x _ _⟩

/-- Settles O18: the shared effect, with the shifted byte and the bit shifted out read as numbers. -/
theorem shiftByOne : Obligations.ShiftByOne := by
  refine ⟨fun s x y => ?_, fun s x y => ?_⟩
  · obtain ⟨hx, hF, hrest⟩ := s.writeFlagged_effect (lowBit (s.getV x)) x (s.getV x >>> 1)
    refine ⟨_, exec_shr s x y, ?_, fun hne => ?_, hrest⟩
    · rw [hx]; exact shiftRight_one_toNat _
    · rw [hF hne]; exact lowBit_toNat _
  · obtain ⟨hx, hF, hrest⟩ := s.writeFlagged_effect (highBit (s.getV x)) x (s.getV x <<< 1)
    refine ⟨_, exec_shl s x y, ?_, fun hne => ?_, hrest⟩
    · rw [hx]; exact shiftLeft_one_toNat _
    · rw [hF hne]; exact highBit_toNat _

end Sys2Proof.Machine
end

section
/-! PROOFS. The rest of 42_memory_block_bcd.md: the font address, and the two instructions that store. -/

namespace Sys2Proof.Machine

/-! ## What each instruction of the family answers, by its check -/

section
variable {s : State} {x : Nibble} {f : Fault}

theorem exec_ldFont_of_glyph {a : Addr} (h : s.glyphOf x = .ok a) :
    exec (.ldFont x) s = .next (s.setI a).advance := by
  simp only [exec, execLdFont, h]

theorem exec_ldFont_of_glyph_error (h : s.glyphOf x = .error f) :
    exec (.ldFont x) s = .fault f := by
  simp only [exec, execLdFont, h, raise]

theorem exec_bcd_of_storeFault_none (h : s.storeFault 3 = none) :
    exec (.bcd x) s = .next (s.storeAtI (bcdDigits (s.getV x))).advance := by
  simp only [exec, execBcd, h]

theorem exec_bcd_of_storeFault_some (h : s.storeFault 3 = some f) :
    exec (.bcd x) s = .fault f := by
  simp only [exec, execBcd, h, raise]

theorem exec_store_of_storeFault_none (h : s.storeFault (x.toNat + 1) = none) :
    exec (.store x) s = .next (s.storeAtI (s.regsUpTo x)).advance := by
  simp only [exec, execStore, h]

theorem exec_store_of_storeFault_some (h : s.storeFault (x.toNat + 1) = some f) :
    exec (.store x) s = .fault f := by
  simp only [exec, execStore, h, raise]

end

/-! ## A store at I: its frame, the bytes it places and those it keeps (R63) -/

theorem State.setMem_frame (s : State) (m : List Host.Cell) : Frame [.mem] s (s.setMem m) := by
  intro p hp
  cases p with
  | mem => exact absurd (List.mem_singleton_self _) hp
  | v | i | pc | stack | depth | dt | st | run | fb | inputs => simp [Piece.same]

section
variable (s : State) (bs : List Byte)

theorem State.storeAtI_advance_frame : Frame [.mem, .pc] s (s.storeAtI bs).advance :=
  (s.setMem_frame _).trans (s.storeAtI bs).advance_frame

theorem State.storeAtI_readMem_inside {k : Nat} (hk : k < bs.length) :
    (s.storeAtI bs).readMem (s.i.toNat + k) = bs.getD k 0 := by
  rw [State.storeAtI_readMem, if_pos (by omega), Nat.add_sub_cancel_left]

theorem State.storeAtI_readMem_outside {a : Nat}
    (ha : a < s.i.toNat ∨ s.i.toNat + bs.length ≤ a) : (s.storeAtI bs).readMem a = s.readMem a := by
  rw [State.storeAtI_readMem, if_neg (by omega)]

end

/-- The byte Fx55 puts at I + j (R175). -/
theorem State.storeAtI_regsUpTo_readMem (s : State) {x j : Nibble} (hj : j.toNat ≤ x.toNat) :
    (s.storeAtI (s.regsUpTo x)).readMem (s.i.toNat + j.toNat) = s.getV j := by
  have hlen := s.regsUpTo_length x
  rw [State.storeAtI_readMem_inside s _ (by omega), s.regsUpTo_getD x j hj]

/-- The three digits of a byte, each below the bound the statement names, compose to it (R174). -/
theorem bcdDigits_compose (b : Byte) :
    100 * ((bcdDigits b).getD 0 0).toNat + 10 * ((bcdDigits b).getD 1 0).toNat +
        ((bcdDigits b).getD 2 0).toNat = b.toNat ∧
      ((bcdDigits b).getD 0 0).toNat ≤ 2 ∧ ((bcdDigits b).getD 1 0).toNat ≤ 9 ∧
      ((bcdDigits b).getD 2 0).toNat ≤ 9 := by
  have hb := b.isLt
  simp only [bcdDigits, List.getD_cons_zero, List.getD_cons_succ, BitVec.toNat_ofNat]
  omega

/-! ## The obligations -/

/-- Settles O28: the check passes in the range, and the bytes at I, I + 1, I + 2 are the list's digits. -/
theorem bcdStoresDigits : Obligations.BcdStoresDigits := by
  intro s x hlo hhi
  have hcheck : s.storeFault 3 = none :=
    (s.storeFault_none_iff (by decide)).mpr ⟨hlo, by omega⟩
  have hlen : (bcdDigits (s.getV x)).length = 3 := rfl
  refine ⟨_, exec_bcd_of_storeFault_none hcheck, ?_⟩
  simp only [State.advance_readMem]
  have hbyte (k : Nat) (hk : k < 3) := s.storeAtI_readMem_inside _ (hlen.symm ▸ hk)
  have hfirst := hbyte 0 (by decide)
  rw [Nat.add_zero] at hfirst
  rw [hfirst, hbyte 1 (by decide), hbyte 2 (by decide)]
  obtain ⟨hsum, hh, ht, ho⟩ := bcdDigits_compose (s.getV x)
  exact ⟨hsum, hh, ht, ho,
    fun a ha => s.storeAtI_readMem_outside _ (by omega), rfl, s.storeAtI_advance_frame _⟩

/-- Settles O29: the check passes in the range, and the block's byte j is V[j]. -/
theorem storeRegisters : Obligations.StoreRegisters := by
  intro s x hlo hhi
  have hcheck : s.storeFault (x.toNat + 1) = none :=
    (s.storeFault_none_iff (Nat.succ_pos _)).mpr ⟨hlo, by omega⟩
  have hlen := s.regsUpTo_length x
  exact ⟨_, exec_store_of_storeFault_none hcheck, fun j hj => s.storeAtI_regsUpTo_readMem hj,
    fun a ha => s.storeAtI_readMem_outside _ (by omega), rfl, s.storeAtI_advance_frame _⟩

/-- Settles O30: the check of either instruction answers first, with its own length. -/
theorem storeOutOfRangeFaults : Obligations.StoreOutOfRangeFaults := by
  intro s x i len hi
  have hlen : 0 < len ∧ len ≤ 16 := by
    have hx := x.isLt
    obtain ⟨-, rfl⟩ | ⟨-, rfl⟩ := hi <;> omega
  have hexec {f : Fault} (h : s.storeFault len = some f) : exec i s = .fault f := by
    obtain ⟨rfl, rfl⟩ | ⟨rfl, rfl⟩ := hi
    · exact exec_bcd_of_storeFault_some h
    · exact exec_store_of_storeFault_some h
  refine ⟨fun hpast => hexec (State.storeFault_of_past (by omega)), fun hlow => ?_⟩
  exact ⟨s.i.setWidth 16, hexec (State.storeFault_of_reserved hlen.2 hlow),
    BitVec.toNat_setWidth_of_le (by decide)⟩

/-- Settles O32: the load reads back at I + j the byte that the store put there from V[j]. -/
theorem storeThenLoadKeepsRegisters : Obligations.StoreThenLoadKeepsRegisters := by
  intro s x hlo hhi
  obtain ⟨t, ht, hstored, -, -, hframe⟩ := storeRegisters s x hlo hhi
  have hti : t.i = s.i := hframe .i (by decide)
  have htv : ∀ j, t.getV j = s.getV j := hframe .v (by decide)
  obtain ⟨u, hu, hloaded, -, huframe⟩ := (loadRegisters t x).1 (by rw [hti]; exact hhi)
  refine ⟨t, u, ht, hu, (huframe .i (by decide)).trans hti, fun j => ?_⟩
  rw [hloaded, hti]
  split_ifs with hj
  · exact hstored j hj
  · exact htv j

/-- Settles O27: the digit's glyph decides, and five times a digit fits 12 bits. -/
theorem fontGlyphAddress : Obligations.FontGlyphAddress := by
  refine fun s x => ⟨fun hdigit => ?_, fun habove => ?_⟩
  · refine ⟨_, exec_ldFont_of_glyph (State.glyphOf_ok hdigit), ?_, rfl, s.setI_advance_frame _⟩
    exact (BitVec.toNat_ofNat _ _).trans (Nat.mod_eq_of_lt (by omega))
  · exact exec_ldFont_of_glyph_error (State.glyphOf_error (by omega))

end Sys2Proof.Machine
end

section
/-! PROOFS. The rest of 43_display_input_timer.md: Dxyn, the two key skips, and the issuing Fx0A. -/

namespace Sys2Proof.Machine

/-! ## What each instruction of the family answers, by its check -/

section
variable {s : State} {x y n : Nibble} {f : Fault} {k : Fin 16}

theorem exec_ldKey : exec (.ldKey x) s = .next (s.setRun (.awaitingKey x)) := rfl

theorem exec_drw_of_loadFault_none (h : s.loadFault n.toNat = none) :
    exec (.drw x y n) s = .next ((s.setFB (s.drawn x y n).fb).setV flagReg
      (flagByte (s.drawn x y n).collision)).advance := by
  simp only [exec, execDrw, h]

theorem exec_drw_of_loadFault_some (h : s.loadFault n.toNat = some f) :
    exec (.drw x y n) s = .fault f := by
  simp only [exec, execDrw, h, raise]

theorem exec_skp_of_key (h : s.keyOf x = .ok k) :
    exec (.skp x) s = .next (s.skipIf (s.keyIsDown k)) := by
  simp only [exec, execSkp, h]

theorem exec_skp_of_key_error (h : s.keyOf x = .error f) : exec (.skp x) s = .fault f := by
  simp only [exec, execSkp, h, raise]

theorem exec_sknp_of_key (h : s.keyOf x = .ok k) :
    exec (.sknp x) s = .next (s.skipIf (!s.keyIsDown k)) := by
  simp only [exec, execSknp, h]

theorem exec_sknp_of_key_error (h : s.keyOf x = .error f) : exec (.sknp x) s = .fault f := by
  simp only [exec, execSknp, h, raise]

end

/-! ## Drawing: the pixels and the collision, in the words of the statement (R192) -/

theorem Memory.readBytes_getD {m : List Host.Cell} {a n k : Nat} (h : k < n) :
    (Memory.readBytes m a n).getD k 0 = Memory.read m (a + k) := by
  simp [Memory.readBytes, h]

section
variable (s : State) (x y n : Nibble)

/-- The sprite bit of the loops' one formula is that of the statement. -/
theorem State.spriteAt_spriteRows (cx : Fin 64) (cy : Fin 32) :
    spriteAt (s.originOf x y).1 (s.originOf x y).2 (s.spriteRows n) cx cy =
      spriteBitAt s x y n cx cy := by
  simp only [spriteAt, spriteBitAt, spriteCol, spriteRow, State.originOf, State.spriteRows,
    Memory.readBytes_length, Nat.mod_mod]
  by_cases hr : (cy.val + 32 - (s.getV y).toNat % 32) % 32 < n.toNat
  · rw [Memory.readBytes_getD hr]
    rfl
  · simp [hr]

theorem State.spriteRows_length_le : (s.spriteRows n).length ≤ 32 := by
  have hn := n.isLt
  rw [State.spriteRows, Memory.readBytes_length]
  omega

theorem State.drawn_view (cx : Fin 64) (cy : Fin 32) :
    fbGet (s.drawn x y n).fb cx cy = (s.view cx cy != spriteBitAt s x y n cx cy) := by
  rw [State.drawn, Canvas.plotRows_fb _ _ _ _ _ _ (s.spriteRows_length_le n),
    State.spriteAt_spriteRows]
  rfl

theorem State.drawn_collision :
    (s.drawn x y n).collision = true ↔
      ∃ cx cy, s.view cx cy = true ∧ spriteBitAt s x y n cx cy = true := by
  rw [State.drawn, Canvas.plotRows_collision _ _ _ _ (s.spriteRows_length_le n)]
  simp [State.spriteAt_spriteRows, State.view]

/-- A collision is a set pixel that became unset. -/
theorem State.drawn_collision_iff_unset :
    (s.drawn x y n).collision = true ↔
      ∃ cx cy, s.view cx cy = true ∧ fbGet (s.drawn x y n).fb cx cy = false := by
  rw [State.drawn_collision]
  refine exists_congr fun cx => exists_congr fun cy => and_congr_right fun hset => ?_
  rw [State.drawn_view, hset, Bool.true_bne, Bool.not_eq_false']

end

/-- What Dxyn reads of the state for a pixel: V[x], V[y], I and memory. -/
theorem spriteBitAt_congr {s t : State} {x y n : Nibble} (hx : t.getV x = s.getV x)
    (hy : t.getV y = s.getV y) (hi : t.i = s.i) (hm : ∀ a, t.readMem a = s.readMem a)
    (cx : Fin 64) (cy : Fin 32) : spriteBitAt t x y n cx cy = spriteBitAt s x y n cx cy := by
  simp only [spriteBitAt, hx, hy, hi, hm]

/-! ## Two frames make one, without a piece that came back -/

theorem Frame.of_same {xs ys : List Piece} {s t : State} (h : Frame xs s t)
    (hback : ∀ p ∈ xs, p ∉ ys → p.same s t) : Frame ys s t := fun p hp =>
  if hx : p ∈ xs then hback p hx hp else h p hx

theorem SameRegsBut.trans {xs : List Nibble} {s t u : State} (hst : SameRegsBut xs s t)
    (htu : SameRegsBut xs t u) : SameRegsBut xs s u := fun j hj =>
  (htu j hj).trans (hst j hj)

/-! ## The run state -/

theorem State.setRun_frame (s : State) (r : RunState) : Frame [.run] s (s.setRun r) := by
  intro p hp
  cases p with
  | run => exact absurd (List.mem_singleton_self _) hp
  | v | i | pc | stack | depth | dt | st | mem | fb | inputs => simp [Piece.same]

/-! ## The obligations -/

/-- Settles O35: the check passes, the loops are the formula, and VF is the flag of the collision. -/
theorem drawComposesByXor : Obligations.DrawComposesByXor := by
  intro s x y n hrange
  have hcheck : s.loadFault n.toNat = none :=
    (s.loadFault_none_iff _).mpr (hrange.imp_left (congrArg BitVec.toNat))
  obtain ⟨hflag, hregs, hpc, hframe⟩ := (s.setFB (s.drawn x y n).fb).setV_advance_effect flagReg
    (flagByte (s.drawn x y n).collision)
  refine ⟨_, exec_drw_of_loadFault_none hcheck, s.drawn_view x y n, ?_, hregs, hpc,
    ((s.setFB_frame _).trans hframe).mono (by decide)⟩
  have hunset := s.drawn_collision_iff_unset x y n
  obtain hc | hc := Bool.eq_false_or_eq_true (s.drawn x y n).collision
  · exact .inl ⟨hflag.trans (congrArg flagByte hc), hunset.mp hc⟩
  · exact .inr ⟨hflag.trans (congrArg flagByte hc),
      mt hunset.mpr (by rw [hc]; exact Bool.false_ne_true)⟩

/-- Settles O36: the check faults before any pixel is drawn. -/
theorem drawPastMemoryFaults : Obligations.DrawPastMemoryFaults := by
  intro s x y n hn hpast
  have hpos : 0 < n.toNat := Nat.pos_of_ne_zero fun h => hn (BitVec.eq_of_toNat_eq h)
  exact exec_drw_of_loadFault_some (State.loadFault_of_past hpos hpast)

/-- Settles O37: the first draw leaves all that the second one reads, so the same bit is XORed twice into
each pixel. -/
theorem drawTwiceRestoresScreen : Obligations.DrawTwiceRestoresScreen := by
  intro s x y n hx hy hrange
  obtain ⟨t, ht, htview, -, htregs, -, htframe⟩ := drawComposesByXor s x y n hrange
  have hti : t.i = s.i := htframe .i (by decide)
  obtain ⟨u, hu, huview, -, huregs, -, huframe⟩ :=
    drawComposesByXor t x y n (by rw [hti]; exact hrange)
  have hbit := spriteBitAt_congr (n := n) (htregs x (mt List.mem_singleton.mp hx))
    (htregs y (mt List.mem_singleton.mp hy)) hti (htframe .mem (by decide))
  have hscreen : Piece.fb.same s u := fun cx cy => by
    rw [huview, htview, hbit, Bool.bne_assoc, bne_self_eq_false, Bool.bne_false]
  refine ⟨t, u, ht, hu, (htframe.trans huframe).of_same fun p hp hout => ?_, htregs.trans huregs⟩
  cases p with
  | fb => exact hscreen
  | v | pc => exact absurd (by decide) hout
  | i | stack | depth | dt | st | run | mem | inputs => exact absurd hp (by decide)

/-- Settles O38: the key in V[x] decides; with a key its level picks the advance. -/
theorem keySkips : Obligations.KeySkips := by
  refine fun s x => ⟨fun hkey => ?_, fun habove => ?_⟩
  · have hk := State.keyOf_ok (show (s.getV x).toNat < 16 by omega)
    refine ⟨⟨_, exec_skp_of_key hk, s.setPc_frame _, ?_⟩,
      ⟨_, exec_sknp_of_key hk, s.setPc_frame _, ?_⟩⟩ <;>
    · rw [State.skipIf_pc, State.keyIsDown]
      cases s.input.keyDown.getLsbD (s.getV x).toNat <;> rfl
  · have hk := State.keyOf_error (show ¬(s.getV x).toNat < 16 by omega)
    exact ⟨exec_skp_of_key_error hk, exec_sknp_of_key_error hk⟩

/-- Settles O40: Fx0A is one write of the run state. -/
theorem waitForKeyIssues : Obligations.WaitForKeyIssues := fun s _ =>
  ⟨_, exec_ldKey, rfl, s.setRun_frame _⟩

end Sys2Proof.Machine
end

section
/-! PROOFS. Which instruction writes what (10_state.md R22, R26): one lemma on completed instructions, from which
the rules of the whole machine follow. -/

namespace Sys2Proof.Machine

/-! ## What a completed instruction leaves (R22, R23, R26, R29 to R35, R38, R39) -/

/-- The pieces of state an instruction may write. -/
def writes : Instr → List Piece
  | .cls => [.fb, .pc]
  | .ret => [.depth, .pc]
  | .call _ => [.stack, .depth, .pc]
  | .ldI _ | .addI _ | .ldFont _ => [.i, .pc]
  | .drw _ _ _ => [.v, .fb, .pc]
  | .ldKey _ => [.run]
  | .ldDTVx _ => [.dt, .pc]
  | .ldSTVx _ => [.st, .pc]
  | .bcd _ | .store _ => [.mem, .pc]
  | .sys _ | .jp _ | .jpV0 _ | .seImm _ _ | .sneImm _ _ | .seReg _ _ | .sneReg _ _ | .skp _
  | .sknp _ => [.pc]
  | .ldImm _ _ | .addImm _ _ | .ldReg _ _ | .orReg _ _ | .andReg _ _ | .xorReg _ _ | .addReg _ _
  | .sub _ _ | .shr _ _ | .subn _ _ | .shl _ _ | .rnd _ _ | .ldVxDT _ | .load _ => [.v, .pc]

/-- What a rule of R26 says of pc before and after. -/
def PcRule.Holds (s t : State) : PcRule → Prop
  | .byTwo => t.pc = s.pc + 2
  | .skip => t.pc = s.pc + 2 ∨ t.pc = s.pc + 4
  | .stay => t.pc = s.pc
  | .transfer => True

/-- The next state t respects what the tables say of instruction i. -/
structure RespectsTables (i : Instr) (s t : State) : Prop where
  frame : Frame (writes i) s t
  regs : ∀ j, mayWriteV j i = false → t.getV j = s.getV j
  pc : (pcRule i).Holds s t

section
variable {i : Instr} {s t : State}

/-- An instruction that writes no general register has to be looked at for its frame and pc only. -/
theorem RespectsTables.of_frame {ps : List Piece} (hframe : Frame ps s t) (hw : writes i = ps)
    (hpc : (pcRule i).Holds s t) (hv : .v ∉ ps := by decide) : RespectsTables i s t :=
  ⟨hw ▸ hframe, fun j _ => hframe .v hv j, hpc⟩

theorem RespectsTables.of_setV_advance {x : Nibble} {b : Byte} (hw : [.v, .pc] ⊆ writes i)
    (hx : ∀ j, mayWriteV j i = false → j ≠ x) (hpc : pcRule i = .byTwo) :
    RespectsTables i s (s.setV x b).advance := by
  obtain ⟨-, hregs, hadv, hframe⟩ := s.setV_advance_effect x b
  exact ⟨hframe.mono hw, fun j hj => hregs j (mt List.mem_singleton.mp (hx j hj)), hpc ▸ hadv⟩

theorem RespectsTables.of_writeFlagged {f : Bool} {x : Nibble} {b : Byte}
    (hw : [.v, .pc] ⊆ writes i) (hx : ∀ j, mayWriteV j i = false → j ∉ [x, 0xF])
    (hpc : pcRule i = .byTwo) : RespectsTables i s (s.writeFlagged f x b) := by
  obtain ⟨-, -, hregs, hadv, hframe⟩ := s.writeFlagged_effect f x b
  exact ⟨hframe.mono hw, fun j hj => hregs j (hx j hj), hpc ▸ hadv⟩

theorem RespectsTables.of_skipIf {c : Bool} (hw : writes i = [.pc]) (hpc : pcRule i = .skip) :
    RespectsTables i s (s.skipIf c) := by
  refine .of_frame (s.setPc_frame _) hw (hpc ▸ ?_)
  cases c
  · exact .inl rfl
  · exact .inr rfl

theorem outcome_next_inj (h : (.next s : Outcome) = .next t) : s = t := Host.Outcome.next.inj h

/-- Every completed instruction respects the tables, by the few shapes the next states have. -/
theorem exec_respectsTables (h : exec i s = .next t) : RespectsTables i s t := by
  cases i with
  | ldImm x _ | addImm x _ | ldReg x _ | orReg x _ | andReg x _ | xorReg x _ | rnd x _ | ldVxDT x =>
    obtain rfl := outcome_next_inj h
    exact .of_setV_advance (List.Subset.refl _) (fun j hj => beq_eq_false_iff_ne.mp hj) rfl
  | addReg x _ | sub x _ | shr x _ | subn x _ | shl x _ =>
    obtain rfl := outcome_next_inj h
    exact .of_writeFlagged (List.Subset.refl _) (fun j hj => by simpa [mayWriteV] using hj) rfl
  | seImm | sneImm | seReg | sneReg =>
    obtain rfl := outcome_next_inj h
    exact .of_skipIf rfl rfl
  | skp =>
    obtain ⟨k, -, rfl⟩ := execSkp_next h
    exact .of_skipIf rfl rfl
  | sknp =>
    obtain ⟨k, -, rfl⟩ := execSknp_next h
    exact .of_skipIf rfl rfl
  | sys =>
    obtain rfl := outcome_next_inj h
    exact .of_frame s.advance_frame rfl rfl
  | jp | jpV0 =>
    obtain rfl := outcome_next_inj h
    exact .of_frame (s.setPc_frame _) rfl trivial
  | call =>
    obtain ⟨_, rfl⟩ := execCall_next h
    exact .of_frame ((s.setStack_frame _ _).trans (State.setPc_frame _ _)) rfl trivial
  | ret =>
    obtain ⟨_, rfl⟩ := execRet_next h
    exact .of_frame ((s.setStack_self_frame _).trans (State.setPc_frame _ _)) rfl trivial
  | ldI | addI =>
    obtain rfl := outcome_next_inj h
    exact .of_frame (s.setI_advance_frame _) rfl rfl
  | ldFont =>
    obtain ⟨_, -, rfl⟩ := execLdFont_next h
    exact .of_frame (s.setI_advance_frame _) rfl rfl
  | cls =>
    obtain rfl := outcome_next_inj h
    exact .of_frame ((s.setFB_frame _).trans (State.advance_frame _)) rfl rfl
  | ldDTVx =>
    obtain rfl := outcome_next_inj h
    exact .of_frame ((s.setDT_frame _).trans (State.advance_frame _)) rfl rfl
  | ldSTVx =>
    obtain rfl := outcome_next_inj h
    exact .of_frame ((s.setST_frame _).trans (State.advance_frame _)) rfl rfl
  | ldKey =>
    obtain rfl := outcome_next_inj h
    exact .of_frame (s.setRun_frame _) rfl rfl
  | bcd =>
    obtain ⟨-, rfl⟩ := execBcd_next h
    exact .of_frame (s.storeAtI_advance_frame _) rfl rfl
  | store =>
    obtain ⟨-, rfl⟩ := execStore_next h
    exact .of_frame (s.storeAtI_advance_frame _) rfl rfl
  | load x =>
    obtain ⟨-, rfl⟩ := execLoad_next h
    refine ⟨(s.setRegs_frame _).trans (State.advance_frame _), fun j hj => ?_, rfl⟩
    have hjx : ¬j.toNat ≤ x.toNat := of_decide_eq_false hj
    rw [State.advance_getV, State.loadRegs_upTo_getV, if_neg hjx]
  | drw =>
    obtain ⟨-, rfl⟩ := execDrw_next h
    obtain ⟨-, hregs, hadv, hframe⟩ := (s.setFB _).setV_advance_effect flagReg _
    refine ⟨((s.setFB_frame _).trans hframe).mono (by simp [writes]), fun j hj => ?_, hadv⟩
    exact hregs j (mt List.mem_singleton.mp (beq_eq_false_iff_ne.mp hj))

/-! ## The columns of the table of writes -/

theorem mem_mem_writes : .mem ∈ writes i → (∃ x, i = .bcd x) ∨ ∃ x, i = .store x := by
  cases i <;> simp [writes]

theorem fb_mem_writes : .fb ∈ writes i → i = .cls ∨ ∃ x y n, i = .drw x y n := by
  cases i <;> simp [writes]

theorem stack_mem_writes : .stack ∈ writes i → ∃ nnn, i = .call nnn := by
  cases i <;> simp [writes]

theorem depth_mem_writes : .depth ∈ writes i → (∃ nnn, i = .call nnn) ∨ i = .ret := by
  cases i <;> simp [writes]

theorem i_mem_writes :
    .i ∈ writes i → (∃ nnn, i = .ldI nnn) ∨ (∃ x, i = .addI x) ∨ ∃ x, i = .ldFont x := by
  cases i <;> simp [writes]

theorem dt_mem_writes : .dt ∈ writes i → ∃ x, i = .ldDTVx x := by
  cases i <;> simp [writes]

theorem st_mem_writes : .st ∈ writes i → ∃ x, i = .ldSTVx x := by
  cases i <;> simp [writes]

theorem run_mem_writes : .run ∈ writes i → ∃ x, i = .ldKey x := by
  cases i <;> simp [writes]

theorem inputs_not_mem_writes : .inputs ∉ writes i := by
  cases i <;> simp [writes]

end

/-! ## The obligations -/

/-- Settles O46, by the table's column of memory. -/
theorem onlyBlockStoresWriteMemory : Obligations.OnlyBlockStoresWriteMemory :=
  fun _ _ _ h hbcd hstore => (exec_respectsTables h).frame .mem fun hw =>
    (mem_mem_writes hw).elim (fun ⟨x, e⟩ => hbcd x e) fun ⟨x, e⟩ => hstore x e

/-- Settles O47, by the table's column of the framebuffer. -/
theorem onlyDisplayWritesFramebuffer : Obligations.OnlyDisplayWritesFramebuffer :=
  fun _ _ _ h hcls hdrw => (exec_respectsTables h).frame .fb fun hw =>
    (fb_mem_writes hw).elim hcls fun ⟨x, y, n, e⟩ => hdrw x y n e

/-- Settles O48, by the table's columns of the slots and of the stack pointer. -/
theorem onlyCallReturnTouchStack : Obligations.OnlyCallReturnTouchStack := by
  intro i s t h hcall
  have hframe := (exec_respectsTables h).frame
  refine ⟨hframe .stack fun hw => ?_, fun hret => hframe .depth fun hw => ?_⟩
  · obtain ⟨nnn, e⟩ := stack_mem_writes hw
    exact hcall nnn e
  · exact (depth_mem_writes hw).elim (fun ⟨nnn, e⟩ => hcall nnn e) hret

/-- Settles O49, by the table's columns of I, DT, ST, the run state and the inputs. -/
theorem addressTimerRunWriters : Obligations.AddressTimerRunWriters := by
  intro i s t h
  have hframe := (exec_respectsTables h).frame
  refine ⟨fun hldI haddI hldFont => hframe .i fun hw => ?_, fun hne => hframe .dt fun hw => ?_,
    fun hne => hframe .st fun hw => ?_, fun hne => hframe .run fun hw => ?_,
    hframe .inputs inputs_not_mem_writes⟩
  · obtain ⟨nnn, e⟩ | ⟨x, e⟩ | ⟨x, e⟩ := i_mem_writes hw
    · exact hldI nnn e
    · exact haddI x e
    · exact hldFont x e
  · exact (dt_mem_writes hw).elim hne
  · exact (st_mem_writes hw).elim hne
  · exact (run_mem_writes hw).elim hne

/-- Settles O50: the table of register uses is part of what a completed instruction respects. -/
theorem registerWriters : Obligations.RegisterWriters :=
  fun _ _ _ j h hj => (exec_respectsTables h).regs j hj

/-- Settles O51: so is the list of pc advances, read off class by class. -/
theorem pcAdvance : Obligations.PcAdvance := by
  intro i s t h
  have hpc := (exec_respectsTables h).pc
  exact ⟨fun e => by rwa [e] at hpc, fun e => by rwa [e] at hpc, fun e => by rwa [e] at hpc⟩

end Sys2Proof.Machine
end

section
/-! PROOFS. One step (70_reset_and_hazards.md R256): fetch, decode, execute or wait, what lies between two steps,
and which of it looks at the environment's inputs. -/

namespace Sys2Proof.Machine

/-! ## The two halves of a step, and its fetch -/

section
variable {s t : State} {i : Instr} {f : Fault} {kx : Nibble}

theorem step_awaiting (hr : s.run = .awaitingKey kx) :
    step s = .next (s.awaitStep kx).between := by
  simp only [step, hr, finishStep]

theorem step_of_fetchInstr (hr : s.run = .running) (hi : s.fetchInstr = .ok i) :
    step s = finishStep (exec i s) := by
  simp only [step, hr, hi]

theorem step_of_fetchInstr_error (hr : s.run = .running) (hf : s.fetchInstr = .error f) :
    step s = .fault f := by
  simp only [step, hr, hf, raise]

theorem step_of_exec_next (hr : s.run = .running) (hi : s.fetchInstr = .ok i)
    (he : exec i s = .next t) : step s = .next t.between := by
  rw [step_of_fetchInstr hr hi, he, finishStep]

theorem step_of_exec_fault (hr : s.run = .running) (hi : s.fetchInstr = .ok i)
    (he : exec i s = .fault f) : step s = .fault f := by
  rw [step_of_fetchInstr hr hi, he, finishStep]

theorem State.fetchInstr_of_fetch_error (hf : s.fetch = .error f) : s.fetchInstr = .error f := by
  simp only [State.fetchInstr, hf]

theorem State.fetch_error (hpc : 0xFFE < s.pc.toNat) :
    s.fetch = .error
      (.addressOutOfRange (if s.pc.toNat = 0xFFF then 0x1000 else s.pc) .fetch s.pc) := by
  unfold State.fetch
  by_cases h : s.pc.toNat = 0xFFF
  · rw [if_neg (by omega), if_pos h, if_pos h]
  · rw [if_pos (by omega), if_neg h]

theorem State.fetchInstr_decodeError {e : DecodeError} (hpc : s.pc.toNat ≤ 0xFFE)
    (hd : decode (wordOfBytes (s.readMem s.pc.toNat) (s.readMem (s.pc.toNat + 1))) = .error e) :
    s.fetchInstr = .error (.decodeError
      (wordOfBytes (s.readMem s.pc.toNat) (s.readMem (s.pc.toNat + 1))) s.pc) := by
  simp only [State.fetchInstr, State.fetch_ok hpc, hd]

end

/-! ## Between two steps, and the wait: frames and effects (R196, R229) -/

theorem Piece.same_refl {s : State} (p : Piece) : p.same s s := by
  cases p with
  | inputs => exact ⟨rfl, rfl⟩
  | v | stack | mem => exact fun _ => rfl
  | fb => exact fun _ _ => rfl
  | i | pc | depth | dt | st | run => exact Eq.refl _

theorem State.between_frame (s : State) : Frame [.dt, .st, .inputs] s s.between := by
  intro p hp
  cases p with
  | dt | st | inputs => exact absurd (by decide) hp
  | v | i | pc | stack | depth | run | mem | fb => simp [Piece.same]

theorem State.awaitStep_frame (s : State) (kx : Nibble) :
    Frame [.v, .pc, .run] s (s.awaitStep kx) := by
  cases h : s.input.keyPress with
  | none => rw [State.awaitStep_none h]; exact fun p _ => p.same_refl
  | some k =>
    obtain ⟨-, -, -, hframe⟩ := s.setV_advance_effect kx (k.setWidth 8)
    rw [State.awaitStep_some h]
    exact hframe.trans (State.setRun_frame _ _)

theorem State.awaitStep_takes {s : State} {kx k : Nibble} (h : s.input.keyPress = some k) :
    ((s.awaitStep kx).getV kx).toNat = k.toNat ∧ SameRegsBut [kx] s (s.awaitStep kx) ∧
      (s.awaitStep kx).pc = s.pc + 2 ∧ (s.awaitStep kx).run = .running := by
  obtain ⟨hkx, hregs, hpc, -⟩ := s.setV_advance_effect kx (k.setWidth 8)
  rw [State.awaitStep_some h]
  exact ⟨(congrArg BitVec.toNat hkx).trans (BitVec.toNat_setWidth_of_le (by decide)), hregs, hpc, rfl⟩

/-! ## The check of an instruction: it alone decides whether the instruction faults (R177, R218) -/

/-- The fault of a checked value, if it has one. -/
def errorOf {α : Type} : Except Fault α → Option Fault
  | .error f => some f
  | .ok _ => none

/-- The fault an instruction's check raises in a state, if it raises one. -/
def checkFault (s : State) : Instr → Option Fault
  | .call _ => errorOf (s.push s.pc)
  | .ret => errorOf s.pop
  | .ldFont x => errorOf (s.glyphOf x)
  | .skp x | .sknp x => errorOf (s.keyOf x)
  | .bcd _ => s.storeFault 3
  | .store x => s.storeFault (x.toNat + 1)
  | .load x => s.loadFault (x.toNat + 1)
  | .drw _ _ n => s.loadFault n.toNat
  | _ => none

/-- The outcome is the check's fault, or a next state if there is none. -/
def DecidedBy (o : Outcome) : Option Fault → Prop
  | some f => o = .fault f
  | none => ∃ t, o = .next t

theorem exec_decidedBy_checkFault (i : Instr) (s : State) :
    DecidedBy (exec i s) (checkFault s i) := by
  cases i with
  | call | ret | ldFont | skp | sknp | bcd | store | load | drw =>
    simp only [exec, execCall, execRet, execLdFont, execSkp, execSknp, execBcd, execStore,
      execLoad, execDrw, checkFault]
    split <;> simp [*, errorOf, DecidedBy, raise]
  | _ => exact ⟨_, rfl⟩

section
variable {i : Instr} {s : State} {f : Fault}

theorem DecidedBy.eq_fault_iff {o : Outcome} {c : Option Fault} (h : DecidedBy o c) :
    o = .fault f ↔ c = some f := by
  cases c with
  | none => obtain ⟨t, rfl⟩ := h; simp
  | some g => obtain rfl := h; simp

theorem DecidedBy.ne_refused {o : Outcome} {c : Option Fault} (h : DecidedBy o c) (r : Refusal) :
    o ≠ .refused r := by
  cases c with
  | none => obtain ⟨t, rfl⟩ := h; simp
  | some g => obtain rfl := h; simp

theorem exec_eq_fault_iff : exec i s = .fault f ↔ checkFault s i = some f :=
  (exec_decidedBy_checkFault i s).eq_fault_iff

theorem exec_ne_refused (r : Refusal) : exec i s ≠ .refused r :=
  (exec_decidedBy_checkFault i s).ne_refused r

/-- No check raises the cause that R216 calls unreachable. -/
theorem checkFault_ne_invalidRegisterIndex :
    checkFault s i ≠ some .invalidRegisterIndex := by
  cases i with
  | call | ret | ldFont | skp | sknp | bcd | store | load | drw =>
    simp only [checkFault, State.push, State.pop, State.glyphOf, State.keyOf, State.storeFault,
      State.loadFault]
    split_ifs <;> simp [errorOf]
  | _ => exact fun h => nomatch h

theorem fetchInstr_ne_invalidRegisterIndex :
    s.fetchInstr ≠ .error .invalidRegisterIndex := by
  by_cases hpc : s.pc.toNat ≤ 0xFFE
  · cases hd : decode (wordOfBytes (s.readMem s.pc.toNat) (s.readMem (s.pc.toNat + 1))) with
    | ok i => simp [State.fetchInstr_ok hpc hd]
    | error e => simp [State.fetchInstr_decodeError hpc hd]
  · simp [State.fetchInstr_of_fetch_error (State.fetch_error (Nat.lt_of_not_le hpc))]

end

/-! ## The environment's inputs (R41, R222) -/

section
variable (s : State) (q : List Input) (n : Nat)

theorem State.setInputs_frame : Frame [.inputs] s (s.setInputs q n) := by
  intro p hp
  cases p with
  | inputs => exact absurd (List.mem_singleton_self _) hp
  | v | i | pc | stack | depth | dt | st | run | mem | fb => simp [Piece.same]

theorem State.setInputs_fetchInstr : (s.setInputs q n).fetchInstr = s.fetchInstr := rfl

@[simp] theorem State.setInputs_glyphOf (x : Nibble) :
    (s.setInputs q n).glyphOf x = s.glyphOf x := rfl

@[simp] theorem State.setInputs_keyOf (x : Nibble) :
    (s.setInputs q n).keyOf x = s.keyOf x := rfl

@[simp] theorem State.setInputs_loadFault (k : Nat) :
    (s.setInputs q n).loadFault k = s.loadFault k := rfl

@[simp] theorem State.setInputs_storeFault (k : Nat) :
    (s.setInputs q n).storeFault k = s.storeFault k := rfl

theorem State.setInputs_keyIsDown {s : State} {q : List Input} {n : Nat}
    (h : (s.setInputs q n).input.keyDown = s.input.keyDown) (k : Fin 16) :
    (s.setInputs q n).keyIsDown k = s.keyIsDown k := by
  rw [State.keyIsDown, h, State.keyIsDown]

/-- No check looks at an input. -/
theorem checkFault_setInputs (i : Instr) : checkFault (s.setInputs q n) i = checkFault s i := by
  cases i with
  | call =>
    by_cases h : s.depth.val < 16 <;> simp [checkFault, State.push, errorOf, h]
  | ret =>
    by_cases h : 0 < s.depth.val <;> simp [checkFault, State.pop, errorOf, h]
  | _ => rfl

end

/-! ## The obligations -/

/-- Settles O5: the fetch answers the decoded instruction, and its execution ends the step. -/
theorem stepRunsDecodedInstruction : Obligations.StepRunsDecodedInstruction :=
  fun _ _ hr hpc hd => ⟨fun _ => step_of_exec_next hr (State.fetchInstr_ok hpc hd),
    fun _ => step_of_exec_fault hr (State.fetchInstr_ok hpc hd)⟩

/-- Settles O6: the frame, and each counter as the ticks leave it. -/
theorem betweenStepsOnlyTimersMove : Obligations.BetweenStepsOnlyTimersMove := fun s =>
  ⟨s.between_frame, elapse_toNat _ _, elapse_toNat _ _, rfl⟩

/-- Settles O7: the fetch faults before anything is decoded. -/
theorem fetchPastMemoryFaults : Obligations.FetchPastMemoryFaults := fun _ hr hpc =>
  step_of_fetchInstr_error hr (State.fetchInstr_of_fetch_error (State.fetch_error hpc))

/-- Settles O8: the fetch passes and the decoder refuses the word. -/
theorem illegalWordFaults : Obligations.IllegalWordFaults := fun _ _ hr hpc hd =>
  step_of_fetchInstr_error hr (State.fetchInstr_decodeError hpc hd)

/-- Settles O9: the step is the wait, whose event decides. -/
theorem awaitingStepTakesKey : Obligations.AwaitingStepTakesKey := fun s kx hr =>
  ⟨s.awaitStep kx, step_awaiting hr, s.awaitStep_frame kx, fun _ => State.awaitStep_takes,
    State.awaitStep_none⟩

/-- Settles O10: a step that is no wait answers the fetch's fault or what the instruction's check decides. -/
theorem stepNeverRefused : Obligations.StepNeverRefused := by
  refine fun s => ⟨fun r h => ?_, fun h => ?_⟩
  · cases hr : s.run with
    | awaitingKey kx => simp [step_awaiting hr] at h
    | running =>
      cases hi : s.fetchInstr with
      | error f => simp [step_of_fetchInstr_error hr hi] at h
      | ok i =>
        rw [step_of_fetchInstr hr hi] at h
        cases he : exec i s with
        | next | fault => simp [he, finishStep] at h
        | refused r' => exact exec_ne_refused r' he
  · obtain ⟨-, hf | ⟨i, -, he⟩⟩ := step_fault h
    · exact fetchInstr_ne_invalidRegisterIndex hf
    · exact checkFault_ne_invalidRegisterIndex (exec_eq_fault_iff.mp he)

/-- Settles O11: neither the fetch nor the check of an instruction looks at an input. -/
theorem faultsIndependentOfInputs : Obligations.FaultsIndependentOfInputs := by
  intro s f q n h
  obtain ⟨hr, hf | ⟨i, hi, he⟩⟩ := step_fault h
  · exact step_of_fetchInstr_error hr hf
  · refine step_of_exec_fault hr hi (exec_eq_fault_iff.mpr ?_)
    rw [checkFault_setInputs]
    exact exec_eq_fault_iff.mp he

/-- Settles O12: the input reaches the next state of three instructions only, and the others build it from what
`setInputs` leaves alone. -/
theorem inputsReadOnlyWhereNamed : Obligations.InputsReadOnlyWhereNamed := by
  intro i s q n hrnd hkeys
  cases i with
  | rnd x kk =>
    rw [exec_rnd, exec_rnd, hrnd ⟨x, kk, rfl⟩]
    rfl
  | skp x =>
    have hdown := State.setInputs_keyIsDown (hkeys ⟨x, .inl rfl⟩)
    simp only [exec, execSkp, State.setInputs_keyOf, hdown]
    cases s.keyOf x <;> rfl
  | sknp x =>
    have hdown := State.setInputs_keyIsDown (hkeys ⟨x, .inr rfl⟩)
    simp only [exec, execSknp, State.setInputs_keyOf, hdown]
    cases s.keyOf x <;> rfl
  | call =>
    by_cases h : s.depth.val < 16
    · simp only [exec, execCall, State.push_room _ h, State.push_room (s := s.setInputs q n) _ h]
      rfl
    · simp only [exec, execCall, State.push_full _ h, State.push_full (s := s.setInputs q n) _ h]
      rfl
  | ret =>
    by_cases h : 0 < s.depth.val
    · simp only [exec, execRet, State.pop_some h, State.pop_some (s := s.setInputs q n) h]
      rfl
    · simp only [exec, execRet, State.pop_empty h, State.pop_empty (s := s.setInputs q n) h]
      rfl
  | ldFont | bcd | store | load | drw =>
    simp only [exec, execLdFont, execBcd, execStore, execLoad, execDrw, State.setInputs_glyphOf,
      State.setInputs_storeFault, State.setInputs_loadFault]
    split <;> rfl
  | _ => rfl

end Sys2Proof.Machine
end

section
/-! PROOFS. What a step does to memory, and the invariant of R45: it holds after reset, every step keeps it, so
it holds of every reachable state. -/

namespace Sys2Proof.Machine

/-! ## Memory over an instruction and over a step (R39, R65, R67) -/

/-- Memory is as before, or one block outside the reserved area and below 0x1000 was written at I. -/
def KeepsOrStores (s t : State) : Prop :=
  t.mem = s.mem ∨ ∃ bs : List Byte, 0x200 ≤ s.i.toNat ∧ s.i.toNat + bs.length ≤ 0x1000 ∧
    t.mem = Memory.writeBytes s.mem s.i.toNat bs

section
variable {s t : State} {i : Instr}

theorem KeepsOrStores.of_storeFault_none {bs : List Byte} (hpos : 0 < bs.length)
    (hc : s.storeFault bs.length = none) : KeepsOrStores s (s.storeAtI bs).advance := by
  obtain ⟨hlo, hhi⟩ := (s.storeFault_none_iff hpos).mp hc
  exact .inr ⟨bs, hlo, hhi, rfl⟩

theorem exec_keepsOrStores (h : exec i s = .next t) : KeepsOrStores s t := by
  cases i with
  | bcd =>
    obtain ⟨hc, rfl⟩ := execBcd_next h
    exact .of_storeFault_none (Nat.succ_pos _) hc
  | store x =>
    obtain ⟨hc, rfl⟩ := execStore_next h
    have hlen := s.regsUpTo_length x
    exact .of_storeFault_none (by omega) (hlen ▸ hc)
  | call => obtain ⟨_, rfl⟩ := execCall_next h; exact .inl rfl
  | ret => obtain ⟨_, rfl⟩ := execRet_next h; exact .inl rfl
  | ldFont => obtain ⟨_, -, rfl⟩ := execLdFont_next h; exact .inl rfl
  | load => obtain ⟨-, rfl⟩ := execLoad_next h; exact .inl rfl
  | drw => obtain ⟨-, rfl⟩ := execDrw_next h; exact .inl rfl
  | skp => obtain ⟨_, -, rfl⟩ := execSkp_next h; exact .inl rfl
  | sknp => obtain ⟨_, -, rfl⟩ := execSknp_next h; exact .inl rfl
  | _ => obtain rfl := outcome_next_inj h; exact .inl rfl

theorem State.awaitStep_mem (kx : Nibble) : (s.awaitStep kx).mem = s.mem := by
  cases h : s.input.keyPress with
  | none => rw [State.awaitStep_none h]
  | some k => rw [State.awaitStep_some h]; rfl

theorem step_keepsOrStores (h : step s = .next t) : KeepsOrStores s t := by
  obtain ⟨kx, -, rfl⟩ | ⟨-, i, u, -, hu, rfl⟩ := step_next h
  · exact .inl (s.awaitStep_mem kx)
  · show KeepsOrStores s u
    exact exec_keepsOrStores hu

theorem KeepsOrStores.readMem_below (h : KeepsOrStores s t) {a : Nat} (ha : a < 0x200) :
    t.readMem a = s.readMem a := by
  obtain hm | ⟨bs, hlo, -, hm⟩ := h
  · rw [State.readMem, hm, State.readMem]
  · rw [State.readMem, hm, Memory.read_writeBytes, if_neg (by omega), State.readMem]

theorem KeepsOrStores.wf (h : KeepsOrStores s t) (hwf : Memory.wf s.mem = true) :
    Memory.wf t.mem = true := by
  obtain hm | ⟨bs, -, hhi, hm⟩ := h
  · rwa [hm]
  · rw [hm]
    exact Memory.wf_writeBytes bs hwf hhi

/-! ## A core that waits stands on its Fx0A (R196) -/

theorem State.between_fetchInstr (s : State) : s.between.fetchInstr = s.fetchInstr :=
  State.fetchInstr_congr rfl fun _ => rfl

/-- An executed instruction leaves the core waiting only if it is the Fx0A itself. -/
theorem exec_waiting {kx : Nibble} (hrun : s.run = .running) (h : exec i s = .next t)
    (ht : t.run = .awaitingKey kx) : i = .ldKey kx ∧ t = s.setRun (.awaitingKey kx) := by
  by_cases hi : ∃ x, i = .ldKey x
  · obtain ⟨x, rfl⟩ := hi
    obtain rfl := outcome_next_inj h
    cases ht
    exact ⟨rfl, rfl⟩
  · obtain ⟨-, -, -, hkeep, -⟩ := addressTimerRunWriters i s t h
    cases ht.symm.trans ((hkeep fun x e => hi ⟨x, e⟩).trans hrun)

theorem step_waiting {kx : Nibble} (hinv : s.Inv) (h : step s = .next t)
    (ht : t.run = .awaitingKey kx) : t.fetchInstr = .ok (.ldKey kx) := by
  obtain ⟨x, hr, rfl⟩ | ⟨hr, i, u, hi, hu, rfl⟩ := step_next h
  · cases hk : s.input.keyPress with
    | none =>
      rw [State.awaitStep_none hk] at ht ⊢
      exact s.between_fetchInstr.trans (hinv.waiting kx ht)
    | some k =>
      obtain ⟨-, -, -, hrun⟩ := State.awaitStep_takes (kx := x) hk
      cases hrun.symm.trans ht
  · obtain ⟨rfl, rfl⟩ := exec_waiting hr hu ht
    exact (State.between_fetchInstr _).trans hi

end

/-! ## Program load (R252) -/

theorem State.loadProgram_fits {s : State} {bytes : List Byte} (h : bytes.length ≤ 3584) :
    s.loadProgram bytes = .next (s.setMem (Memory.writeBytes s.mem 0x200 bytes)) :=
  if_neg (Nat.not_lt.mpr h)

theorem State.loadProgram_tooLong {s : State} {bytes : List Byte} (h : 3584 < bytes.length) :
    s.loadProgram bytes = .refused (.programTooLarge bytes.length) := if_pos h

theorem State.loadProgram_next {s t : State} {bytes : List Byte}
    (h : s.loadProgram bytes = .next t) :
    bytes.length ≤ 3584 ∧ t = s.setMem (Memory.writeBytes s.mem 0x200 bytes) := by
  by_cases hlen : bytes.length ≤ 3584
  · exact ⟨hlen, (outcome_next_inj ((State.loadProgram_fits hlen).symm.trans h)).symm⟩
  · rw [State.loadProgram_tooLong (Nat.lt_of_not_le hlen)] at h
    cases h

/-- A reset machine that loads an image meets the invariant: the image ends below 0x1000. -/
theorem inv_of_driverReset_loadProgram {s t : State} {bytes : List Byte}
    (h : s.driverReset.loadProgram bytes = .next t) : t.Inv := by
  obtain ⟨hlen, rfl⟩ := State.loadProgram_next h
  have hfits : 0x200 + bytes.length ≤ Config.memSize := by rw [Config.memSize]; omega
  refine ⟨Memory.wf_writeBytes bytes Memory.wf_reset hfits, fun a ha => ?_, fun kx hk => nomatch hk⟩
  rw [Config.loadOrigin] at ha
  rw [State.readMem, State.setMem_mem, Memory.read_writeBytes, if_neg (by omega)]
  rfl

/-! ## Ticks, reset and the presented inputs -/

theorem State.tick_frame (s : State) : Frame [.dt, .st] s s.tick := by
  intro p hp
  cases p with
  | dt | st => exact absurd (by decide) hp
  | v | i | pc | stack | depth | run | mem | fb | inputs => simp [Piece.same]

theorem resetByte_past_font {a : Nat} (ha : 80 ≤ a) : Config.resetByte a = 0 :=
  List.getD_eq_default _ _ ha

theorem State.Inv.setInputs {s : State} (hinv : s.Inv) (q : List Input) (n : Nat) :
    (s.setInputs q n).Inv := hinv.congr rfl rfl rfl

/-! ## The obligations -/

/-- Settles O33: a step keeps memory or stores one block outside the reserved area. -/
theorem reservedAreaNeverWritten : Obligations.ReservedAreaNeverWritten :=
  fun _ _ h _ ha => (step_keepsOrStores h).readMem_below ha

/-- Settles O53: the store's range keeps the list canonical and the reserved area; the wait keeps its Fx0A. -/
theorem stepKeepsInvariant : Obligations.StepKeepsInvariant := fun s t hinv h =>
  { wf := (step_keepsOrStores h).wf hinv.wf
    reserved := fun a ha => (reservedAreaNeverWritten s t h a ha).trans (hinv.reserved a ha)
    waiting := fun _ => step_waiting hinv h }

/-- Settles O52: nothing is listed, and the core runs. -/
theorem resetMeetsInvariant : Obligations.ResetMeetsInvariant :=
  { wf := Memory.wf_reset
    reserved := fun _ _ => rfl
    waiting := fun _ h => nomatch h }

/-- Settles O44: a block write from 0x200 on. -/
theorem loadProgramPlacesBytes : Obligations.LoadProgramPlacesBytes := by
  refine fun s bytes => ⟨fun hlen => ?_, State.loadProgram_tooLong⟩
  refine ⟨_, State.loadProgram_fits hlen, fun k hk => ?_, fun a ha => ?_, s.setMem_frame _⟩
  · rw [State.readMem, State.setMem_mem, Memory.read_writeBytes, if_pos (by omega),
      Nat.add_sub_cancel_left]
    simp [hk]
  · rw [State.readMem, State.setMem_mem, Memory.read_writeBytes, if_neg (by omega), State.readMem]

/-- Settles O54, by induction on how the state is reached: O52 at the start, O53 at each step, and the other
moves leave all that the invariant speaks of, or start again from reset. -/
theorem reachableStatesMeetInvariant : Obligations.ReachableStatesMeetInvariant := by
  intro s hs
  induction hs with
  | boot => exact resetMeetsInvariant
  | step _ h ih => exact stepKeepsInvariant _ _ ih h
  | move keyDown keyPress rnd _ h ih =>
    exact stepKeepsInvariant _ _ (ih.setInputs _ _) h
  | tick _ ih => exact ih.congr rfl rfl rfl
  | reset => exact State.Inv.congr resetMeetsInvariant rfl rfl rfl
  | resetLoad bytes _ h => exact inv_of_driverReset_loadProgram h

/-- Settles O42: each counter is one tick on. -/
theorem tickCountsDown : Obligations.TickCountsDown := fun s =>
  ⟨tickCounter_toNat s.dt, tickCounter_toNat s.st, s.tick_frame⟩

/-- Settles O43: the fields as reset writes them; past the font an unlisted address reads 0, and the driver's
reset differs in the inputs only. -/
theorem resetValues : Obligations.ResetValues := by
  refine ⟨fun j => ?_, rfl, rfl, rfl, rfl, rfl, rfl, fbGet_blank, by decide,
    fun a ha => resetByte_past_font ha, fun s => State.reset.setInputs_frame _ _⟩
  simp [State.getV, State.reset]

end Sys2Proof.Machine
end

section
/-! PROOFS. Runs of a few steps: call and return, the key wait, and the jump to itself. -/

namespace Sys2Proof.Machine

/-! ## The call and its return (R27) -/

theorem State.depth_eq_of_sp_eq {s t : State} (h : t.sp = s.sp) : t.depth = s.depth :=
  Fin.ext (Int.ofNat_inj.mp (sub_left_injective h))

/-- Settles O24: the step's call pushes s.pc at the new sp, and the return pops that slot; of the pieces the two
steps write, sp is the one that came back. -/
theorem callThenReturn : Obligations.CallThenReturn := by
  intro s nnn hrun hpc hnnn hd hret hsp
  obtain ⟨a, ha, hasp, haslots, hapc, haframe⟩ := (callPushesOrOverflows s nnn).2 hsp
  have hsa := haframe.trans a.between_frame
  have hmem : ∀ c, a.between.readMem c = s.readMem c := hsa .mem (by decide)
  have hfetch : a.between.fetchInstr = .ok .ret :=
    State.fetchInstr_ok (by rw [State.between_pc, hapc]; exact hnnn)
      (by rw [State.between_pc, hapc, hmem, hmem, hret]; rfl)
  have hdepth := s.depth_eq_sp_add_one
  obtain ⟨top, htop⟩ : ∃ j : Fin 16, a.sp = j.val :=
    ⟨⟨s.depth.val, by omega⟩, hasp.trans hdepth.symm⟩
  obtain ⟨b, hb, hbsp, hbpc, hbframe⟩ := (returnPopsOrUnderflows a.between).2 top htop
  have hub : b.sp = s.sp := by
    have : a.between.sp = a.sp := rfl
    omega
  refine ⟨a.between, b.between, step_of_exec_next hrun (State.fetchInstr_ok hpc hd) ha,
    step_of_exec_next ((hsa .run (by decide)).trans hrun) hfetch hb, ?_, hub, ?_⟩
  · rw [State.between_pc, hbpc, State.between_stack, haslots, if_pos htop.symm]
  · refine (hsa.trans (hbframe.trans b.between_frame)).of_same fun p hp hout => ?_
    cases p with
    | depth => exact State.depth_eq_of_sp_eq hub
    | pc | stack | dt | st | inputs => exact absurd (by decide) hout
    | v | i | run | mem | fb => exact absurd hp (by decide)

/-! ## The key wait (R196) -/

theorem State.input_of_cons {s : State} {a : Input} {q : List Input} (h : s.inputs = a :: q) :
    s.input = a := by
  rw [State.input, h]

theorem State.between_dt_toNat {s : State} {a : Input} {q : List Input} (h : s.inputs = a :: q) :
    s.between.dt.toNat = s.dt.toNat - a.ticks := by
  rw [State.between_dt, elapse_toNat, State.input_of_cons h]

section
variable {s : State} {kx k : Nibble} {a : Input} {q : List Input}

/-- The step that executes Fx0A. -/
theorem step_issues (hr : s.run = .running) (hi : s.fetchInstr = .ok (.ldKey kx))
    (hq : s.inputs = a :: q) :
    ∃ t, step s = .next t ∧ t.run = .awaitingKey kx ∧ Frame [.run, .dt, .st, .inputs] s t ∧
      t.inputs = q ∧ t.dt.toNat = s.dt.toNat - a.ticks :=
  ⟨_, step_of_exec_next hr hi exec_ldKey, rfl, (s.setRun_frame _).trans (State.between_frame _),
    congrArg List.tail hq, State.between_dt_toNat (s := s.setRun (.awaitingKey kx)) hq⟩

/-- A waiting step without an event. -/
theorem step_waits (hr : s.run = .awaitingKey kx) (hq : s.inputs = a :: q)
    (ha : a.keyPress = none) :
    ∃ t, step s = .next t ∧ t.run = .awaitingKey kx ∧ Frame [.dt, .st, .inputs] s t ∧
      t.inputs = q ∧ t.dt.toNat = s.dt.toNat - a.ticks := by
  have hwait := State.awaitStep_none (kx := kx) (by rw [State.input_of_cons hq]; exact ha)
  exact ⟨s.between, (step_awaiting hr).trans (by rw [hwait]), hr, s.between_frame, congrArg List.tail hq,
    State.between_dt_toNat hq⟩

/-- A waiting step with event k. -/
theorem step_takes (hr : s.run = .awaitingKey kx) (hq : s.inputs = a :: q)
    (ha : a.keyPress = some k) :
    ∃ t, step s = .next t ∧ t.run = .running ∧ t.pc = s.pc + 2 ∧ (t.getV kx).toNat = k.toNat ∧
      SameRegsBut [kx] s t ∧ t.dt.toNat = s.dt.toNat - a.ticks := by
  obtain ⟨hkx, hregs, hpc, hrun⟩ :=
    State.awaitStep_takes (kx := kx) (by rw [State.input_of_cons hq]; exact ha)
  have hframe := s.awaitStep_frame kx
  have hdt : (s.awaitStep kx).dt = s.dt := hframe .dt (by decide)
  obtain ⟨hinputs, -⟩ := hframe .inputs (by decide)
  exact ⟨_, step_awaiting hr, hrun, hpc, hkx, hregs,
    hdt ▸ State.between_dt_toNat (hinputs.trans hq)⟩

end

theorem resultOf_waiting {o : Outcome} {t : State} {kx : Nibble} (ho : o = .next t)
    (hr : t.run = .awaitingKey kx) : resultOf o = some .waiting := by
  rw [ho, resultOf, hr]

theorem resultOf_ok {o : Outcome} {t : State} (ho : o = .next t) (hr : t.run = .running) :
    resultOf o = some .ok := by
  rw [ho, resultOf, hr]

/-- Settles O41: the first step issues, the second finds no event, the third finds k; each input's ticks come
off DT after its own step. -/
theorem keyWaitCompletes : Obligations.KeyWaitCompletes := by
  intro s x k a b c q hrun hpc hq hb hc hd
  obtain ⟨t, ht, htrun, htframe, htq, htdt⟩ := step_issues hrun (State.fetchInstr_ok hpc hd) hq
  obtain ⟨u, hu, hurun, huframe, huq, hudt⟩ := step_waits htrun htq hb
  obtain ⟨w, hw, hwrun, hwpc, hwx, hwregs, hwdt⟩ := step_takes hurun huq hc
  have htpc : t.pc = s.pc := htframe .pc (by decide)
  have hupc : u.pc = s.pc := (huframe .pc (by decide)).trans htpc
  have huv : ∀ j, u.getV j = s.getV j := fun j =>
    (huframe .v (by decide) j).trans (htframe .v (by decide) j)
  exact ⟨t, u, w, ht, resultOf_waiting ht htrun, htpc, hu, resultOf_waiting hu hurun, hupc, hw,
    resultOf_ok hw hwrun, hupc ▸ hwpc, hwx, fun j hj => (hwregs j hj).trans (huv j), hwrun, by omega⟩

/-! ## The jump to itself (R258) -/

theorem State.endedNormally_iff {s : State} :
    s.endedNormally = true ↔
      s.run = .running ∧ ∃ nnn, s.fetchInstr = .ok (.jp nnn) ∧ targetOf nnn = s.pc := by
  refine ⟨fun h => ?_, fun ⟨hrun, nnn, hi, htarget⟩ => ?_⟩
  · unfold State.endedNormally at h
    split at h
    next nnn hrun hi => exact ⟨hrun, nnn, hi, beq_iff_eq.mp h⟩
    next => cases h
  · simp [State.endedNormally, hrun, hi, htarget]

/-- Settles O45: the step jumps to where pc is, so the state after it has ended normally by the same fetch. -/
theorem selfJumpChangesNothing : Obligations.SelfJumpChangesNothing := by
  intro s h
  obtain ⟨hrun, nnn, hi, htarget⟩ := State.endedNormally_iff.mp h
  have hself : exec (.jp nnn) s = .next s := by rw [exec_jp, htarget]; rfl
  have hstep := step_of_exec_next hrun hi hself
  refine ⟨s.between, hstep, resultOf_ok hstep hrun, s.between_frame, ?_⟩
  exact State.endedNormally_iff.mpr ⟨hrun, nnn, s.between_fetchInstr.trans hi, htarget⟩

end Sys2Proof.Machine
end
